-- ==== Sys2Proof/Word.lean ====
section
/-! DEFINITION. The machine's two bit-vector types (spec/00_scope.md R9): a register, a memory word and an address
have 16 bits, a byte has 8, and `+`, `-`, `*` on them are modulo 2^16 (R28). -/

namespace Sys2Proof

/-- A register, a memory word or an address: 16 bits (R6, R9). -/
abbrev Word := BitVec 16

/-- The addressable unit: 8 bits (R6, R9). -/
abbrev Byte := BitVec 8

end Sys2Proof
end

