-- ==== Sys2Proof/Syntax.lean ====
section
/-! DEFINITION. The instruction set as data: one constructor of `Instr` for each of the 48 rows of
spec/opcode_table.json, with the operand record of spec/30_encoding.md R82 and R98. -/

namespace Sys2Proof

/-- The eight registers, by index (spec/10_state.md R20, R21). Every one can be named by every register field (R96). -/
inductive Reg where
  | r0 | r1 | r2 | r3 | r4 | r5 | r6 | r7
  deriving DecidableEq, Repr, Inhabited

/-- R4, the link register (R21). -/
abbrev Reg.lr : Reg := .r4
/-- R5, the stack pointer; no instruction uses it implicitly (R23). -/
abbrev Reg.sp : Reg := .r5
/-- R6, the program status word (R21, R29). -/
abbrev Reg.psw : Reg := .r6
/-- R7, the program counter (R21, R25). -/
abbrev Reg.pc : Reg := .r7

/-- The bus width an instruction selects with its `wb` bit: 0 is Word, 1 is Byte (R60, R97). -/
inductive Width where
  | word | byte
  deriving DecidableEq, Repr, Inhabited

/-- The `rc` bit of an arithmetic word: 0 when `src` names a register, 1 when it selects a constant (R97). The bit goes
to the slot's handler as it is. -/
inductive SrcKind where
  | register | constant
  deriving DecidableEq, Repr, Inhabited

/-- The `prpo` bit of LD and ST: 0 takes the address before the address register is modified, 1 after (R97). -/
inductive IndexMode where
  | post | pre
  deriving DecidableEq, Repr, Inhabited

/-- The eight branch conditions, in the order of the branch-condition dispatch table (R99). -/
inductive Cond where
  | eq | ne | cs | cc | neg | ge | lt | al
  deriving DecidableEq, Repr, Inhabited

/-- The instructions, each with the raw field values of its operand record, at the widths of R98: a handler sign-extends and
scales an offset (R92 to R94), the decoder does not. The bits that are in no field (R103) are not kept. -/
inductive Instr where
  /-- MOVH, R240. -/
  | movh (imm8 : Byte) (dst : Reg)
  /-- BL, R150. -/
  | bl (off12 : BitVec 12)
  /-- BEQ, R152. -/
  | beq (off10 : BitVec 10)
  /-- BNE, R153. -/
  | bne (off10 : BitVec 10)
  /-- BC, R154. -/
  | bc (off10 : BitVec 10)
  /-- BNC, R155. -/
  | bnc (off10 : BitVec 10)
  /-- BN, R156. -/
  | bn (off10 : BitVec 10)
  /-- BGE, R157. -/
  | bge (off10 : BitVec 10)
  /-- BLT, R158. -/
  | blt (off10 : BitVec 10)
  /-- BAL, R159. -/
  | bal (off10 : BitVec 10)
  /-- Arithmetic slot 0, R173. -/
  | a0 (rc : SrcKind) (wb : Width) (src dst : Reg)
  /-- Arithmetic slot 1, R174. -/
  | a1 (rc : SrcKind) (wb : Width) (src dst : Reg)
  /-- Arithmetic slot 2, R175. -/
  | a2 (rc : SrcKind) (wb : Width) (src dst : Reg)
  /-- Arithmetic slot 3, R176. -/
  | a3 (rc : SrcKind) (wb : Width) (src dst : Reg)
  /-- Arithmetic slot 4, R177. -/
  | a4 (rc : SrcKind) (wb : Width) (src dst : Reg)
  /-- Arithmetic slot 5, R178. -/
  | a5 (rc : SrcKind) (wb : Width) (src dst : Reg)
  /-- Arithmetic slot 6, R179. -/
  | a6 (rc : SrcKind) (wb : Width) (src dst : Reg)
  /-- Arithmetic slot 7, R180. -/
  | a7 (rc : SrcKind) (wb : Width) (src dst : Reg)
  /-- Arithmetic slot 8, R181. -/
  | a8 (rc : SrcKind) (wb : Width) (src dst : Reg)
  /-- Arithmetic slot 9, R182. -/
  | a9 (rc : SrcKind) (wb : Width) (src dst : Reg)
  /-- Arithmetic slot 10, R183. -/
  | a10 (rc : SrcKind) (wb : Width) (src dst : Reg)
  /-- Arithmetic slot 11, R184. -/
  | a11 (rc : SrcKind) (wb : Width) (src dst : Reg)
  /-- Arithmetic slot 12, R185. -/
  | a12 (rc : SrcKind) (wb : Width) (src dst : Reg)
  /-- Arithmetic slot 13, R186. -/
  | a13 (rc : SrcKind) (wb : Width) (src dst : Reg)
  /-- Arithmetic slot 14, R187. -/
  | a14 (rc : SrcKind) (wb : Width) (src dst : Reg)
  /-- Arithmetic slot 15, R188. -/
  | a15 (rc : SrcKind) (wb : Width) (src dst : Reg)
  /-- Arithmetic slot 16, R189. -/
  | a16 (rc : SrcKind) (wb : Width) (src dst : Reg)
  /-- Arithmetic slot 17, R190. -/
  | a17 (rc : SrcKind) (wb : Width) (src dst : Reg)
  /-- Arithmetic slot 18, R191. -/
  | a18 (rc : SrcKind) (wb : Width) (src dst : Reg)
  /-- Arithmetic slot 19, R192. -/
  | a19 (rc : SrcKind) (wb : Width) (src dst : Reg)
  /-- Arithmetic slot 20, R193. -/
  | a20 (rc : SrcKind) (wb : Width) (src dst : Reg)
  /-- Arithmetic slot 21, R194. -/
  | a21 (rc : SrcKind) (wb : Width) (src dst : Reg)
  /-- Arithmetic slot 22, R195. -/
  | a22 (rc : SrcKind) (wb : Width) (src dst : Reg)
  /-- Arithmetic slot 23, R196. -/
  | a23 (rc : SrcKind) (wb : Width) (src dst : Reg)
  /-- Arithmetic slot 24, R197. -/
  | a24 (rc : SrcKind) (wb : Width) (src dst : Reg)
  /-- Arithmetic slot 25, R198. -/
  | a25 (rc : SrcKind) (wb : Width) (src dst : Reg)
  /-- Arithmetic slot 26, R199. -/
  | a26 (rc : SrcKind) (wb : Width) (src dst : Reg)
  /-- Arithmetic slot 27, R200. -/
  | a27 (rc : SrcKind) (wb : Width) (src dst : Reg)
  /-- Arithmetic slot 28, R201. -/
  | a28 (rc : SrcKind) (wb : Width) (src dst : Reg)
  /-- Arithmetic slot 29, R202. -/
  | a29 (rc : SrcKind) (wb : Width) (src dst : Reg)
  /-- Arithmetic slot 30, R203. -/
  | a30 (rc : SrcKind) (wb : Width) (src dst : Reg)
  /-- Arithmetic slot 31, R204. -/
  | a31 (rc : SrcKind) (wb : Width) (src dst : Reg)
  /-- LD, R211. -/
  | ld (prpo : IndexMode) (dec inc : Bool) (wb : Width) (src dst : Reg)
  /-- ST, R212. -/
  | st (prpo : IndexMode) (dec inc : Bool) (wb : Width) (src dst : Reg)
  /-- MOVL, R214. -/
  | movl (imm8 : Byte) (dst : Reg)
  /-- MOVLZ, R215. -/
  | movlz (imm8 : Byte) (dst : Reg)
  /-- LDR, R250. -/
  | ldr (off7 : BitVec 7) (wb : Width) (src dst : Reg)
  /-- STR, R251. -/
  | str (off7 : BitVec 7) (wb : Width) (src dst : Reg)
  deriving DecidableEq, Repr, Inhabited

end Sys2Proof
end

