-- ==== Sys2Proof/WellFormed.lean ====
section
/-! DEFINITION. Which terms of `Instr` are instructions of the machine: all of them. The operands are the raw fields of
spec/30_encoding.md R98, so every operand's bound is a fact about its type, and no combination of operands is illegal
(R104): the reserved combination `dec = inc = 1` of LD and ST is well-formed and executes as a no-op. What can be out of
range is a number that an assembler is to put into an offset field (R92, R93, R94, R108). -/

namespace Sys2Proof

/-- No term of `Instr` is ill-formed (R98, R104). -/
def Instr.wellFormed (_ : Instr) : Bool := true

/-- `off` fits a two's-complement field of `n + 1` bits: `-2^n ≤ off < 2^n`. -/
def offsetFits (n : Nat) (off : Int) : Bool :=
  decide (-(2 ^ n : Int) ≤ off) && decide (off < 2 ^ n)

/-- The offset field of `n + 1` bits that holds `off`; `none` where `off` is out of its range (R92, R93, R94, R108). -/
def offsetField (n : Nat) (off : Int) : Option (BitVec (n + 1)) :=
  if offsetFits n off then some (BitVec.ofInt (n + 1) off) else none

end Sys2Proof
end

