-- ==== Sys2Proof/Decode.lean ====
section
/-! DEFINITION. The decoder of spec/30_encoding.md (R82: seven classes, tested in the source's order; R84 to R91: the
formats), the encoder written from the same formats, and the opcode table of spec/opcode_table.json as data. -/

namespace Sys2Proof

/-- `field w lo n` is the `n`-bit field of `w` whose lowest bit is bit `lo`: `w[lo+n-1:lo]` of R8. -/
def field (w : Word) (lo n : Nat) : BitVec n := w.extractLsb' lo n

/-- A register field (R96). -/
def regOfBits (b : BitVec 3) : Reg :=
  match b.toNat with
  | 0 => .r0
  | 1 => .r1
  | 2 => .r2
  | 3 => .r3
  | 4 => .r4
  | 5 => .r5
  | 6 => .r6
  | _ => .r7

/-- The register field that names `r` (R96). -/
def regBits : Reg → BitVec 3
  | .r0 => 0
  | .r1 => 1
  | .r2 => 2
  | .r3 => 3
  | .r4 => 4
  | .r5 => 5
  | .r6 => 6
  | .r7 => 7

/-- A one-bit field is 1. -/
def bitSet (b : BitVec 1) : Bool := b == 1

/-- The one-bit field that holds `b`. -/
def flagBit (b : Bool) : BitVec 1 := if b then 1 else 0

/-- `wb`: 0 Word, 1 Byte (R97). -/
def widthOfBit (b : BitVec 1) : Width := if bitSet b then .byte else .word

/-- The `wb` bit of a width (R97). -/
def widthBit : Width → BitVec 1
  | .word => 0
  | .byte => 1

/-- `rc`: 0 register, 1 constant (R97). -/
def srcKindOfBit (b : BitVec 1) : SrcKind := if bitSet b then .constant else .register

/-- The `rc` bit of an operand kind (R97). -/
def srcKindBit : SrcKind → BitVec 1
  | .register => 0
  | .constant => 1

/-- `prpo`: 0 post-index, 1 pre-index (R97). -/
def indexModeOfBit (b : BitVec 1) : IndexMode := if bitSet b then .pre else .post

/-- The `prpo` bit of an index mode (R97). -/
def indexModeBit : IndexMode → BitVec 1
  | .post => 0
  | .pre => 1

/-- The branch-condition dispatch table `BT`, indexed by the `cond` field (R99). -/
def condOfBits (b : BitVec 3) : Cond :=
  match b.toNat with
  | 0 => .eq
  | 1 => .ne
  | 2 => .cs
  | 3 => .cc
  | 4 => .neg
  | 5 => .ge
  | 6 => .lt
  | _ => .al

/-- The `cond` field of a condition (R99). -/
def condBits : Cond → BitVec 3
  | .eq => 0
  | .ne => 1
  | .cs => 2
  | .cc => 3
  | .neg => 4
  | .ge => 5
  | .lt => 6
  | .al => 7

/-- The branch instruction of a condition (R99). -/
def branchInstr (c : Cond) (off10 : BitVec 10) : Instr :=
  match c with
  | .eq => .beq off10
  | .ne => .bne off10
  | .cs => .bc off10
  | .cc => .bnc off10
  | .neg => .bn off10
  | .ge => .bge off10
  | .lt => .blt off10
  | .al => .bal off10

/-- The instruction of arithmetic slot `k`, `k` in 0..31 (R100, R173 to R204). -/
def slotInstr (k : Nat) (rc : SrcKind) (wb : Width) (src dst : Reg) : Instr :=
  match k with
  | 0 => .a0 rc wb src dst
  | 1 => .a1 rc wb src dst
  | 2 => .a2 rc wb src dst
  | 3 => .a3 rc wb src dst
  | 4 => .a4 rc wb src dst
  | 5 => .a5 rc wb src dst
  | 6 => .a6 rc wb src dst
  | 7 => .a7 rc wb src dst
  | 8 => .a8 rc wb src dst
  | 9 => .a9 rc wb src dst
  | 10 => .a10 rc wb src dst
  | 11 => .a11 rc wb src dst
  | 12 => .a12 rc wb src dst
  | 13 => .a13 rc wb src dst
  | 14 => .a14 rc wb src dst
  | 15 => .a15 rc wb src dst
  | 16 => .a16 rc wb src dst
  | 17 => .a17 rc wb src dst
  | 18 => .a18 rc wb src dst
  | 19 => .a19 rc wb src dst
  | 20 => .a20 rc wb src dst
  | 21 => .a21 rc wb src dst
  | 22 => .a22 rc wb src dst
  | 23 => .a23 rc wb src dst
  | 24 => .a24 rc wb src dst
  | 25 => .a25 rc wb src dst
  | 26 => .a26 rc wb src dst
  | 27 => .a27 rc wb src dst
  | 28 => .a28 rc wb src dst
  | 29 => .a29 rc wb src dst
  | 30 => .a30 rc wb src dst
  | _ => .a31 rc wb src dst

/-- The seven mutually exclusive decoder classes (R82). -/
inductive InstrClass where
  | branchAndLink | branch | arithmetic | ldStMovlMovlz | moveHigh | loadRelative | storeRelative
  deriving DecidableEq, Repr, Inhabited

/-- The class of a word: the patterns of R82, tested in its order. The last test needs no pattern of its own, which is
why no word is refused (R83). -/
def classify (w : Word) : InstrClass :=
  if field w 12 4 = 0b0001 then .branchAndLink
  else if field w 13 3 = 0b001 then .branch
  else if field w 13 3 = 0b010 then .arithmetic
  else if field w 13 3 = 0b011 then .ldStMovlMovlz
  else if field w 12 4 = 0b0000 then .moveHigh
  else if field w 14 2 = 0b10 then .loadRelative
  else .storeRelative

/-- The sub-type switch of the LD_ST_MOVL_MOVLZ class on bits 12 and 11 (R88, R102), with the formats of R89 and R90.
Bit 7 of LD and ST is in no field (R103). -/
def decodeSubType (w : Word) : Instr :=
  match (field w 11 2).toNat with
  | 0 => .ld (indexModeOfBit (field w 10 1)) (bitSet (field w 9 1)) (bitSet (field w 8 1)) (widthOfBit (field w 6 1))
      (regOfBits (field w 3 3)) (regOfBits (field w 0 3))
  | 1 => .st (indexModeOfBit (field w 10 1)) (bitSet (field w 9 1)) (bitSet (field w 8 1)) (widthOfBit (field w 6 1))
      (regOfBits (field w 3 3)) (regOfBits (field w 0 3))
  | 2 => .movl (field w 3 8) (regOfBits (field w 0 3))
  | _ => .movlz (field w 3 8) (regOfBits (field w 0 3))

/-- `Decode` of R82: total on the 65,536 words (R83). The fields go to the handler raw (R98). Bit 11 of MOVH is in no field (R103). -/
def decode (w : Word) : Instr :=
  match classify w with
  | .branchAndLink => .bl (field w 0 12)
  | .branch => branchInstr (condOfBits (field w 10 3)) (field w 0 10)
  | .arithmetic => slotInstr (field w 8 5).toNat (srcKindOfBit (field w 7 1)) (widthOfBit (field w 6 1))
      (regOfBits (field w 3 3)) (regOfBits (field w 0 3))
  | .ldStMovlMovlz => decodeSubType w
  | .moveHigh => .movh (field w 3 8) (regOfBits (field w 0 3))
  | .loadRelative => .ldr (field w 7 7) (widthOfBit (field w 6 1))
      (regOfBits (field w 3 3)) (regOfBits (field w 0 3))
  | .storeRelative => .str (field w 7 7) (widthOfBit (field w 6 1))
      (regOfBits (field w 3 3)) (regOfBits (field w 0 3))

/-- The instruction word held by two bytes: the byte at the lower address is the low one (R55, R80). -/
def wordOfBytes (low high : Byte) : Word := high ++ low

/-- Why bytes are not an instruction. The word decoder itself refuses nothing (R83, R104). -/
inductive DecodeRefusal where
  /-- Fewer than the two bytes that every instruction has (R80): raised by `decodeBytes` only, never by a fetch, which
  always reads two bytes. Safe. -/
  | truncated
  deriving DecidableEq, Repr

/-- The instruction at the head of a list of bytes, and the bytes after it (R80). -/
def decodeBytes : List Byte → Except DecodeRefusal (Instr × List Byte)
  | low :: high :: rest => .ok (decode (wordOfBytes low high), rest)
  | _ => .error .truncated

/-- The two bytes of an instruction word, lowest address first (R55). -/
def bytesOfWord (w : Word) : List Byte := [field w 0 8, field w 8 8]

/-- A word of the ARITHMETIC format `010kkkkkrwsssddd` (R87). -/
def arithWord (k : BitVec 5) (rc : SrcKind) (wb : Width) (src dst : Reg) : Word :=
  0b010#3 ++ k ++ srcKindBit rc ++ widthBit wb ++ regBits src ++ regBits dst

/-- A word of the BRANCH format `001cccoooooooooo` (R86). -/
def branchWord (c : Cond) (off10 : BitVec 10) : Word :=
  0b001#3 ++ condBits c ++ off10

/-- A word of the LD or ST format `011sspdi-wsssddd`; the bit in no field is written as 0 (R89, R103). -/
def indexedWord (sub : BitVec 2) (prpo : IndexMode) (dec inc : Bool) (wb : Width) (src dst : Reg) : Word :=
  0b011#3 ++ sub ++ indexModeBit prpo ++ flagBit dec ++ flagBit inc ++ 0#1 ++ widthBit wb ++ regBits src ++ regBits dst

/-- The word of an instruction, from the encoding strings of R84 to R91. -/
def encode : Instr → Word
  | .movh imm8 dst => 0b0000#4 ++ 0#1 ++ imm8 ++ regBits dst
  | .bl off12 => 0b0001#4 ++ off12
  | .beq off10 => branchWord .eq off10
  | .bne off10 => branchWord .ne off10
  | .bc off10 => branchWord .cs off10
  | .bnc off10 => branchWord .cc off10
  | .bn off10 => branchWord .neg off10
  | .bge off10 => branchWord .ge off10
  | .blt off10 => branchWord .lt off10
  | .bal off10 => branchWord .al off10
  | .a0 rc wb src dst => arithWord 0 rc wb src dst
  | .a1 rc wb src dst => arithWord 1 rc wb src dst
  | .a2 rc wb src dst => arithWord 2 rc wb src dst
  | .a3 rc wb src dst => arithWord 3 rc wb src dst
  | .a4 rc wb src dst => arithWord 4 rc wb src dst
  | .a5 rc wb src dst => arithWord 5 rc wb src dst
  | .a6 rc wb src dst => arithWord 6 rc wb src dst
  | .a7 rc wb src dst => arithWord 7 rc wb src dst
  | .a8 rc wb src dst => arithWord 8 rc wb src dst
  | .a9 rc wb src dst => arithWord 9 rc wb src dst
  | .a10 rc wb src dst => arithWord 10 rc wb src dst
  | .a11 rc wb src dst => arithWord 11 rc wb src dst
  | .a12 rc wb src dst => arithWord 12 rc wb src dst
  | .a13 rc wb src dst => arithWord 13 rc wb src dst
  | .a14 rc wb src dst => arithWord 14 rc wb src dst
  | .a15 rc wb src dst => arithWord 15 rc wb src dst
  | .a16 rc wb src dst => arithWord 16 rc wb src dst
  | .a17 rc wb src dst => arithWord 17 rc wb src dst
  | .a18 rc wb src dst => arithWord 18 rc wb src dst
  | .a19 rc wb src dst => arithWord 19 rc wb src dst
  | .a20 rc wb src dst => arithWord 20 rc wb src dst
  | .a21 rc wb src dst => arithWord 21 rc wb src dst
  | .a22 rc wb src dst => arithWord 22 rc wb src dst
  | .a23 rc wb src dst => arithWord 23 rc wb src dst
  | .a24 rc wb src dst => arithWord 24 rc wb src dst
  | .a25 rc wb src dst => arithWord 25 rc wb src dst
  | .a26 rc wb src dst => arithWord 26 rc wb src dst
  | .a27 rc wb src dst => arithWord 27 rc wb src dst
  | .a28 rc wb src dst => arithWord 28 rc wb src dst
  | .a29 rc wb src dst => arithWord 29 rc wb src dst
  | .a30 rc wb src dst => arithWord 30 rc wb src dst
  | .a31 rc wb src dst => arithWord 31 rc wb src dst
  | .ld prpo dec inc wb src dst => indexedWord 0b00#2 prpo dec inc wb src dst
  | .st prpo dec inc wb src dst => indexedWord 0b01#2 prpo dec inc wb src dst
  | .movl imm8 dst => 0b011#3 ++ 0b10#2 ++ imm8 ++ regBits dst
  | .movlz imm8 dst => 0b011#3 ++ 0b11#2 ++ imm8 ++ regBits dst
  | .ldr off7 wb src dst => 0b10#2 ++ off7 ++ widthBit wb ++ regBits src ++ regBits dst
  | .str off7 wb src dst => 0b11#2 ++ off7 ++ widthBit wb ++ regBits src ++ regBits dst

/-- One row of spec/opcode_table.json. -/
structure OpcodeRow where
  mnemonic : String
  pattern  : Word
  mask     : Word
  deriving DecidableEq, Repr

/-- The word is one of the row's. -/
def OpcodeRow.fits (row : OpcodeRow) (w : Word) : Bool := w &&& row.mask == row.pattern

/-- The rows of the BRANCH class. -/
def branchRows : List OpcodeRow :=
  [⟨"BEQ", 0x2000, 0xFC00⟩,
   ⟨"BNE", 0x2400, 0xFC00⟩,
   ⟨"BC", 0x2800, 0xFC00⟩,
   ⟨"BNC", 0x2C00, 0xFC00⟩,
   ⟨"BN", 0x3000, 0xFC00⟩,
   ⟨"BGE", 0x3400, 0xFC00⟩,
   ⟨"BLT", 0x3800, 0xFC00⟩,
   ⟨"BAL", 0x3C00, 0xFC00⟩]

/-- The rows of arithmetic slots 0 to 15. -/
def arithRowsLow : List OpcodeRow :=
  [⟨"A0", 0x4000, 0xFF00⟩, ⟨"A1", 0x4100, 0xFF00⟩, ⟨"A2", 0x4200, 0xFF00⟩, ⟨"A3", 0x4300, 0xFF00⟩,
   ⟨"A4", 0x4400, 0xFF00⟩, ⟨"A5", 0x4500, 0xFF00⟩, ⟨"A6", 0x4600, 0xFF00⟩, ⟨"A7", 0x4700, 0xFF00⟩,
   ⟨"A8", 0x4800, 0xFF00⟩, ⟨"A9", 0x4900, 0xFF00⟩, ⟨"A10", 0x4A00, 0xFF00⟩, ⟨"A11", 0x4B00, 0xFF00⟩,
   ⟨"A12", 0x4C00, 0xFF00⟩, ⟨"A13", 0x4D00, 0xFF00⟩, ⟨"A14", 0x4E00, 0xFF00⟩, ⟨"A15", 0x4F00, 0xFF00⟩]

/-- The rows of arithmetic slots 16 to 31. -/
def arithRowsHigh : List OpcodeRow :=
  [⟨"A16", 0x5000, 0xFF00⟩, ⟨"A17", 0x5100, 0xFF00⟩, ⟨"A18", 0x5200, 0xFF00⟩, ⟨"A19", 0x5300, 0xFF00⟩,
   ⟨"A20", 0x5400, 0xFF00⟩, ⟨"A21", 0x5500, 0xFF00⟩, ⟨"A22", 0x5600, 0xFF00⟩, ⟨"A23", 0x5700, 0xFF00⟩,
   ⟨"A24", 0x5800, 0xFF00⟩, ⟨"A25", 0x5900, 0xFF00⟩, ⟨"A26", 0x5A00, 0xFF00⟩, ⟨"A27", 0x5B00, 0xFF00⟩,
   ⟨"A28", 0x5C00, 0xFF00⟩, ⟨"A29", 0x5D00, 0xFF00⟩, ⟨"A30", 0x5E00, 0xFF00⟩, ⟨"A31", 0x5F00, 0xFF00⟩]

/-- The rows of the five other classes. -/
def moveAndMemoryRows : List OpcodeRow :=
  [⟨"MOVH", 0x0000, 0xF000⟩, ⟨"BL", 0x1000, 0xF000⟩, ⟨"LD", 0x6000, 0xF800⟩, ⟨"ST", 0x6800, 0xF800⟩,
   ⟨"MOVL", 0x7000, 0xF800⟩, ⟨"MOVLZ", 0x7800, 0xF800⟩, ⟨"LDR", 0x8000, 0xC000⟩, ⟨"STR", 0xC000, 0xC000⟩]

/-- The opcode table: 48 rows. -/
def opcodeTable : List OpcodeRow := moveAndMemoryRows ++ branchRows ++ arithRowsLow ++ arithRowsHigh

/-- The mnemonic of an instruction, as spec/opcode_table.json spells it. -/
def Instr.mnemonic : Instr → String
  | .movh _ _ => "MOVH"
  | .bl _ => "BL"
  | .beq _ => "BEQ"
  | .bne _ => "BNE"
  | .bc _ => "BC"
  | .bnc _ => "BNC"
  | .bn _ => "BN"
  | .bge _ => "BGE"
  | .blt _ => "BLT"
  | .bal _ => "BAL"
  | .a0 _ _ _ _ => "A0"
  | .a1 _ _ _ _ => "A1"
  | .a2 _ _ _ _ => "A2"
  | .a3 _ _ _ _ => "A3"
  | .a4 _ _ _ _ => "A4"
  | .a5 _ _ _ _ => "A5"
  | .a6 _ _ _ _ => "A6"
  | .a7 _ _ _ _ => "A7"
  | .a8 _ _ _ _ => "A8"
  | .a9 _ _ _ _ => "A9"
  | .a10 _ _ _ _ => "A10"
  | .a11 _ _ _ _ => "A11"
  | .a12 _ _ _ _ => "A12"
  | .a13 _ _ _ _ => "A13"
  | .a14 _ _ _ _ => "A14"
  | .a15 _ _ _ _ => "A15"
  | .a16 _ _ _ _ => "A16"
  | .a17 _ _ _ _ => "A17"
  | .a18 _ _ _ _ => "A18"
  | .a19 _ _ _ _ => "A19"
  | .a20 _ _ _ _ => "A20"
  | .a21 _ _ _ _ => "A21"
  | .a22 _ _ _ _ => "A22"
  | .a23 _ _ _ _ => "A23"
  | .a24 _ _ _ _ => "A24"
  | .a25 _ _ _ _ => "A25"
  | .a26 _ _ _ _ => "A26"
  | .a27 _ _ _ _ => "A27"
  | .a28 _ _ _ _ => "A28"
  | .a29 _ _ _ _ => "A29"
  | .a30 _ _ _ _ => "A30"
  | .a31 _ _ _ _ => "A31"
  | .ld _ _ _ _ _ _ => "LD"
  | .st _ _ _ _ _ _ => "ST"
  | .movl _ _ => "MOVL"
  | .movlz _ _ => "MOVLZ"
  | .ldr _ _ _ _ => "LDR"
  | .str _ _ _ _ => "STR"

/-- The host's question to the decoder: the instruction whose low `nbits` bits are those of `w` and whose other bits are 0,
laid out in memory as R55 says and given to `decodeBytes`. -/
def decodeTableWord (nbits w : Nat) : Option Instr :=
  match decodeBytes (bytesOfWord (BitVec.ofNat 16 (w % 2 ^ nbits))) with
  | .ok (i, _) => some i
  | .error _ => none

end Sys2Proof
end

