-- ==== Sys2Proof/Machine/RegFile.lean ====
section
/-! DEFINITION. The register file of spec/10_state.md R20: eight 16-bit registers, no banks, no copies, no hard-wired
register (R22), and the one read and the one write through which every instruction reaches them. -/

namespace Sys2Proof.Machine

/-- The eight registers R0 to R7 (R20, R21). -/
structure RegFile where
  r0 : Word
  r1 : Word
  r2 : Word
  r3 : Word
  r4 : Word
  r5 : Word
  r6 : Word
  r7 : Word
  deriving DecidableEq, Repr, Inhabited

/-- A read returns the 16 bits last written (R20). -/
def RegFile.get (f : RegFile) : Reg → Word
  | .r0 => f.r0
  | .r1 => f.r1
  | .r2 => f.r2
  | .r3 => f.r3
  | .r4 => f.r4
  | .r5 => f.r5
  | .r6 => f.r6
  | .r7 => f.r7

/-- A write replaces all 16 bits of one register (R20). -/
def RegFile.set (f : RegFile) (r : Reg) (v : Word) : RegFile :=
  match r with
  | .r0 => { f with r0 := v }
  | .r1 => { f with r1 := v }
  | .r2 => { f with r2 := v }
  | .r3 => { f with r3 := v }
  | .r4 => { f with r4 := v }
  | .r5 => { f with r5 := v }
  | .r6 => { f with r6 := v }
  | .r7 => { f with r7 := v }

end Sys2Proof.Machine
end

