-- ==== Sys2Proof/Config.lean ====
section
/-! DEFINITION. The implementation parameters of spec/00_scope.md R7. A parameter with a default decided by the spec has
that value. A parameter the spec leaves OPEN (the arithmetic handlers, which of their slots are reserved, the device
collaborator) is an `opaque` constant: nothing can be proved of it but what holds for every value. The start-of-run
parameters are the fields of `Machine.Launch`; only their values in `State.reset` are named here. -/

namespace Sys2Proof

/-- `PSW_LAYOUT`: the bit of R6 that holds each flag (spec/10_state.md R31). -/
structure PswLayout where
  c   : Nat
  z   : Nat
  n   : Nat
  slp : Nat
  v   : Nat
  deriving DecidableEq, Repr

/-- What an arithmetic handler is given from the word: the fields of R170, raw. -/
structure ArithFields where
  rc  : SrcKind
  wb  : Width
  src : Reg
  dst : Reg
  deriving DecidableEq, Repr

/-- What an arithmetic handler leaves: a register file and the contents of memory (R171). -/
structure HandlerEffect where
  regs : Machine.RegFile
  mem  : Word → Byte
  deriving Inhabited

/-- What the device collaborator leaves: its own state, the register file and the contents of memory (R128). -/
structure DeviceEffect where
  dev  : Nat
  regs : Machine.RegFile
  mem  : Word → Byte
  deriving Inhabited

/-- Default layout (R7, R31): C = 0, Z = 1, N = 2, SLP = 3, V = 4. UNVERIFIED (notes/assumptions/9.md), unsafe. -/
def Config.pswLayout : PswLayout := { c := 0, z := 1, n := 2, slp := 3, v := 4 }

/-- `CLOCK_WIDTH`: `none` is the default, an unbounded natural number; `some W` wraps modulo 2^W (R34).
UNVERIFIED (notes/assumptions/10.md), unsafe. -/
def Config.clockWidth : Option Nat := none

/-- `SENTINEL_IN_BAND`: `none` is the default, an out-of-band sentinel; with `some v` a fetched word equal to `v` also
counts as no instruction (R122). UNVERIFIED (notes/assumptions/10.md), unsafe. -/
def Config.sentinelInBand : Option Word := none

/-- The reserved halt address, HCF (R6, R59). -/
def Config.haltAddress : Word := 0xFFFF

/-- Addresses are 16 bits: 65,536 bytes (R50). -/
def Config.memoryBytes : Nat := 65536

/-- What an address that memory does not list reads as. DESIGN CHOICE (notes/assumptions/2.md), unsafe: the spec leaves
the contents of memory at the start of a run open (R40, `RESET_MEM`). -/
def Config.unwrittenByte : Byte := 0x00

/-- What R0 to R7 hold in `State.reset`. DESIGN CHOICE (notes/assumptions/1.md), unsafe: the spec leaves `RESET_REGS` and
`RESET_PC` open (R40). -/
def Config.resetRegister : Word := 0x0000

/-- `ARITH_RESERVED`, OPEN (R172): the slots that hold the no-op handler. FREE VALUE (notes/assumptions/3.md). -/
opaque Config.arithReserved : Fin 32 → Bool

/-- `ARITH_TABLE`, OPEN (R170, R171): the handler of each slot, a total function of the decoded fields, the register file
and the contents of memory. FREE VALUE (notes/assumptions/3.md). -/
opaque Config.arithTable : Fin 32 → ArithFields → Machine.RegFile → (Word → Byte) → HandlerEffect

/-- `DEV`, OPEN (R128, R272): what the device collaborator does in one HANDLE_DEVICES phase when one is present, a function
of its own state, the register file and the contents of memory. FREE VALUE (notes/assumptions/4.md). -/
opaque Config.deviceService : Nat → Machine.RegFile → (Word → Byte) → DeviceEffect

end Sys2Proof
end

