-- ==== Sys2Proof/Machine/State.lean ====
section
/-! DEFINITION. Everything the spec gives the machine (spec/10_state.md, the record at its head), the reasons a step can
stop (the spec gives none), and the state at the start of a run (R40, R300). -/

namespace Sys2Proof.Machine

/-- The FDE phase (R36). -/
inductive Phase where
  | fetch | decode | execute | handleDevices
  deriving DecidableEq, Repr, Inhabited

/-- The bytes behind the memory bus (R50), as (address, byte) pairs: addresses strictly rising, and no entry equal to what
an unlisted address reads as (`Memory.wf`). -/
abbrev Memory := List Host.Cell

/-- The reasons the machine stops with a fault: none. The CORE has no synchronous exception and no cause codes (R270),
and no behaviour of it is a fault (spec/93_implementation_defined.md, end of part 1). DEDUCED (notes/assumptions/18.md),
safe. -/
inductive Fault where
  deriving DecidableEq, Repr

/-- The reasons for which there is no answer. -/
inductive Refusal where
  /-- Raised only by an arm of `exec` whose instruction has no meaning yet: there is none left. Safe. -/
  | notModelled (mnemonic : String)
  /-- Raised only by `State.inspect`, the debugger's read, while a run is in progress: such a read has no defined result
  (R67, I13). No step raises it. Safe. -/
  | inspectedWhileRunning
  deriving DecidableEq, Repr

/-- The state of the machine. -/
structure State where
  /-- R0 to R7 (R20); R7 is the program counter (R25), R6 the PSW (R24). -/
  regs    : RegFile
  /-- The memory array behind the bus (R50). -/
  mem     : Memory
  /-- System Clock: the number of executed instructions (R34). -/
  clk     : Nat
  /-- Run-flag (R35). -/
  run     : Bool
  /-- FDE phase (R36). -/
  phase   : Phase
  /-- The fetched word of the cycle in progress: `none` is the sentinel of an idle cycle (R37). -/
  ir      : Option Word
  /-- The device collaborator (R38): `none` when the platform has none, else its own state, opaque to the CORE. -/
  dev     : Option Nat
  /-- The model's own field, not the spec's: the host's cancellation input (R273), one entry for each cycle to come, `true`
  when the host raises the signal in that cycle; where the list ends no further signal comes. -/
  signals : List Bool
  deriving DecidableEq, Repr

/-- Entry to `RunMachine` (R40, R300): run-flag true, clock 0, phase FETCH, no instruction in flight. The registers, the
PC and memory are open in the spec; notes/assumptions/1.md and 2.md name the values here. No device is present
(notes/assumptions/4.md) and no signal is to come (notes/assumptions/5.md). -/
def State.reset : State where
  regs :=
    { r0 := Config.resetRegister, r1 := Config.resetRegister, r2 := Config.resetRegister, r3 := Config.resetRegister,
      r4 := Config.resetRegister, r5 := Config.resetRegister, r6 := Config.resetRegister, r7 := Config.resetRegister }
  mem := []
  clk := 0
  run := true
  phase := .fetch
  ir := none
  dev := none
  signals := []

end Sys2Proof.Machine
end

