-- ==== Sys2Proof/Machine/Ops.lean ====
section
/-! DEFINITION. The named operations over registers and memory: the register accessors, the memory array in its one
canonical form, and the bus of spec/20_memory.md (R51 to R54, R72). Nothing here faults: every address holds a byte
(R50, R64), and no access needs alignment (R57).

TAKING AN EXCEPTION AND RETURNING FROM ONE have no operation here because the machine has neither: the CORE raises no
exception (R270), no event saves state, changes a mode or vectors the PC (R277), and no instruction returns from a trap
(R278). -/

namespace Sys2Proof.Machine

/-! ### Bytes of a word -/

/-- `lo(v)` of R10. -/
def lowByte (v : Word) : Byte := v.extractLsb' 0 8

/-- `hi(v)` of R10. -/
def highByte (v : Word) : Byte := v.extractLsb' 8 8

/-- `high : low`, the 16 bits of two bytes (R8). -/
def joinBytes (high low : Byte) : Word := high ++ low

/-- `zext_8` of R10. -/
def zeroExtend (b : Byte) : Word := joinBytes 0 b

/-- `sext_n` of R10: the value of an `n`-bit field, sign-extended to 16 bits. -/
def signExtend {n : Nat} (v : BitVec n) : Word := v.signExtend 16

/-! ### The memory array -/

/-- The byte at address `a`: the listed one, else what an unlisted address reads as. -/
def Memory.read : Memory → Nat → Byte
  | [], _ => Config.unwrittenByte
  | (k, c) :: m, a => if k = a then c else Memory.read m a

/-- `m` with the entry for `a` put in front of it, or left out where it would equal an unlisted byte. -/
def Memory.cons (a : Nat) (b : Byte) (m : Memory) : Memory :=
  if b = Config.unwrittenByte then m else (a, b) :: m

/-- The byte at `a` becomes `b`; no other byte changes. -/
def Memory.write : Memory → Nat → Byte → Memory
  | [], a, b => Memory.cons a b []
  | (k, c) :: m, a, b =>
    if a < k then Memory.cons a b ((k, c) :: m)
    else if a = k then Memory.cons a b m
    else (k, c) :: Memory.write m a b

/-- `m` is in canonical form and lists only addresses from `low` up to the end of the address space. -/
def Memory.wfFrom : Nat → Memory → Bool
  | _, [] => true
  | low, (k, c) :: m =>
    decide (low ≤ k) && decide (k < Config.memoryBytes) && decide (c ≠ Config.unwrittenByte) && Memory.wfFrom (k + 1) m

/-- The canonical form: addresses strictly rising, inside the address space, and no entry equal to an unlisted byte. -/
def Memory.wf (m : Memory) : Bool := Memory.wfFrom 0 m

/-- The canonical form of `count` bytes of `f`, from address `a` on. -/
def Memory.tabulate (f : Nat → Byte) : Nat → Nat → Memory
  | 0, _ => []
  | count + 1, a => Memory.cons a (f a) (Memory.tabulate f count (a + 1))

/-- The byte at a 16-bit address: `M[a]` of R50. -/
def Memory.readAt (m : Memory) (a : Word) : Byte := Memory.read m a.toNat

/-- `M[a] <- b` of R50. -/
def Memory.writeAt (m : Memory) (a : Word) (b : Byte) : Memory := Memory.write m a.toNat b

/-- The memory whose contents are the total function `f` of R50. -/
def Memory.ofContents (f : Word → Byte) : Memory :=
  Memory.tabulate (fun a => f (BitVec.ofNat 16 a)) Config.memoryBytes 0

/-! ### The bus -/

/-- `BusRead` (R72), `MemRead` of R51 and R52: a byte is zero-extended; a word is the byte at `a` below the byte at
`a + 1`, with `a + 1` modulo 2^16. -/
def busRead (m : Memory) (a : Word) : Width → Word
  | .byte => zeroExtend (Memory.readAt m a)
  | .word => joinBytes (Memory.readAt m (a + 1)) (Memory.readAt m a)

/-- `BusWrite` (R72), `MemWrite` of R53 and R54: a byte write stores `v[7:0]`; a word write stores `v[7:0]` at `a` and
`v[15:8]` at `a + 1`, with `a + 1` modulo 2^16. -/
def busWrite (m : Memory) (a : Word) (w : Width) (v : Word) : Memory :=
  match w with
  | .byte => Memory.writeAt m a (lowByte v)
  | .word => Memory.writeAt (Memory.writeAt m a (lowByte v)) (a + 1) (highByte v)

/-! ### Accessors of the state -/

/-- `x[r]` (R10). -/
def State.reg (s : State) (r : Reg) : Word := s.regs.get r

/-- `x[r] <- v` (R10). -/
def State.setReg (s : State) (r : Reg) (v : Word) : State := { s with regs := s.regs.set r v }

/-- `MemRead(a, w)` (R10). -/
def State.load (s : State) (a : Word) (w : Width) : Word := busRead s.mem a w

/-- `MemWrite(a, w, v)` (R10). -/
def State.store (s : State) (a : Word) (w : Width) (v : Word) : State := { s with mem := busWrite s.mem a w v }

/-- The byte of memory at `a`: `M[a]`. -/
def State.byteAt (s : State) (a : Word) : Byte := Memory.readAt s.mem a

/-- The register file and memory that a handler left (R171); nothing else changes (R39). -/
def State.applyHandler (s : State) (e : HandlerEffect) : State :=
  { s with regs := e.regs, mem := Memory.ofContents e.mem }

/-- What the device collaborator left (R128); nothing else changes. -/
def State.applyDevice (s : State) (e : DeviceEffect) : State :=
  { s with dev := some e.dev, regs := e.regs, mem := Memory.ofContents e.mem }

/-- The engine goes to phase `p` (R36). -/
def State.setPhase (s : State) (p : Phase) : State := { s with phase := p }

/-- The fetched word, or its sentinel (R37). -/
def State.setIr (s : State) (ir : Option Word) : State := { s with ir := ir }

/-- The next value of a clock of the given width (R34). -/
def clockAfter (width : Option Nat) (clk : Nat) : Nat :=
  match width with
  | none => clk + 1
  | some w => (clk + 1) % 2 ^ w

/-- `clk <- clk + 1` (R127). -/
def State.tickClock (s : State) : State := { s with clk := clockAfter Config.clockWidth s.clk }

/-- The host's cancellation move: `run <- false` and nothing else (R273). -/
def State.cancel (s : State) : State := { s with run := false }

/-- The no-op handler (R101): no register, flag or byte of memory changes. -/
def noop (s : State) : State := s

end Sys2Proof.Machine
end

