-- ==== Sys2Proof/Machine/Arith.lean ====
section
/-! DEFINITION. The 32 arithmetic dispatch slots (spec/42_arithmetic.md). What a slot's handler computes and which slots
are reserved are parameters (R170, R172, D26); what the CORE does with each is here. The clock's increment is the engine's
(R127, `executePhase`). -/

namespace Sys2Proof.Machine

/-- The entry of slot `k` in the arithmetic dispatch table (R100), applied to the decoded fields and the state, for a given
set of reserved slots and a given table of handlers: the no-op handler in a reserved slot (R101, R172), else the handler,
which is given the fields, the register file and the contents of memory, and changes only those two (R171). -/
def slotEntry (reserved : Fin 32 → Bool) (table : Fin 32 → ArithFields → RegFile → (Word → Byte) → HandlerEffect)
    (k : Fin 32) (f : ArithFields) (s : State) : State :=
  if reserved k then noop s else s.applyHandler (table k f s.regs (Memory.readAt s.mem))

/-- ARITH dispatch (R170) through this machine's table. -/
def runSlot (k : Fin 32) (rc : SrcKind) (wb : Width) (src dst : Reg) (s : State) : State :=
  slotEntry Config.arithReserved Config.arithTable k { rc := rc, wb := wb, src := src, dst := dst } s

/-- Arithmetic slot 0 (R173). -/
def execA0 (rc : SrcKind) (wb : Width) (src dst : Reg) (s : State) : Host.Outcome State Fault Refusal :=
  .next (runSlot 0 rc wb src dst s)

/-- Arithmetic slot 1 (R174). -/
def execA1 (rc : SrcKind) (wb : Width) (src dst : Reg) (s : State) : Host.Outcome State Fault Refusal :=
  .next (runSlot 1 rc wb src dst s)

/-- Arithmetic slot 2 (R175). -/
def execA2 (rc : SrcKind) (wb : Width) (src dst : Reg) (s : State) : Host.Outcome State Fault Refusal :=
  .next (runSlot 2 rc wb src dst s)

/-- Arithmetic slot 3 (R176). -/
def execA3 (rc : SrcKind) (wb : Width) (src dst : Reg) (s : State) : Host.Outcome State Fault Refusal :=
  .next (runSlot 3 rc wb src dst s)

/-- Arithmetic slot 4 (R177). -/
def execA4 (rc : SrcKind) (wb : Width) (src dst : Reg) (s : State) : Host.Outcome State Fault Refusal :=
  .next (runSlot 4 rc wb src dst s)

/-- Arithmetic slot 5 (R178). -/
def execA5 (rc : SrcKind) (wb : Width) (src dst : Reg) (s : State) : Host.Outcome State Fault Refusal :=
  .next (runSlot 5 rc wb src dst s)

/-- Arithmetic slot 6 (R179). -/
def execA6 (rc : SrcKind) (wb : Width) (src dst : Reg) (s : State) : Host.Outcome State Fault Refusal :=
  .next (runSlot 6 rc wb src dst s)

/-- Arithmetic slot 7 (R180). -/
def execA7 (rc : SrcKind) (wb : Width) (src dst : Reg) (s : State) : Host.Outcome State Fault Refusal :=
  .next (runSlot 7 rc wb src dst s)

/-- Arithmetic slot 8 (R181). -/
def execA8 (rc : SrcKind) (wb : Width) (src dst : Reg) (s : State) : Host.Outcome State Fault Refusal :=
  .next (runSlot 8 rc wb src dst s)

/-- Arithmetic slot 9 (R182). -/
def execA9 (rc : SrcKind) (wb : Width) (src dst : Reg) (s : State) : Host.Outcome State Fault Refusal :=
  .next (runSlot 9 rc wb src dst s)

/-- Arithmetic slot 10 (R183). -/
def execA10 (rc : SrcKind) (wb : Width) (src dst : Reg) (s : State) : Host.Outcome State Fault Refusal :=
  .next (runSlot 10 rc wb src dst s)

/-- Arithmetic slot 11 (R184). -/
def execA11 (rc : SrcKind) (wb : Width) (src dst : Reg) (s : State) : Host.Outcome State Fault Refusal :=
  .next (runSlot 11 rc wb src dst s)

/-- Arithmetic slot 12 (R185). -/
def execA12 (rc : SrcKind) (wb : Width) (src dst : Reg) (s : State) : Host.Outcome State Fault Refusal :=
  .next (runSlot 12 rc wb src dst s)

/-- Arithmetic slot 13 (R186). -/
def execA13 (rc : SrcKind) (wb : Width) (src dst : Reg) (s : State) : Host.Outcome State Fault Refusal :=
  .next (runSlot 13 rc wb src dst s)

/-- Arithmetic slot 14 (R187). -/
def execA14 (rc : SrcKind) (wb : Width) (src dst : Reg) (s : State) : Host.Outcome State Fault Refusal :=
  .next (runSlot 14 rc wb src dst s)

/-- Arithmetic slot 15 (R188). -/
def execA15 (rc : SrcKind) (wb : Width) (src dst : Reg) (s : State) : Host.Outcome State Fault Refusal :=
  .next (runSlot 15 rc wb src dst s)

/-- Arithmetic slot 16 (R189). -/
def execA16 (rc : SrcKind) (wb : Width) (src dst : Reg) (s : State) : Host.Outcome State Fault Refusal :=
  .next (runSlot 16 rc wb src dst s)

/-- Arithmetic slot 17 (R190). -/
def execA17 (rc : SrcKind) (wb : Width) (src dst : Reg) (s : State) : Host.Outcome State Fault Refusal :=
  .next (runSlot 17 rc wb src dst s)

/-- Arithmetic slot 18 (R191). -/
def execA18 (rc : SrcKind) (wb : Width) (src dst : Reg) (s : State) : Host.Outcome State Fault Refusal :=
  .next (runSlot 18 rc wb src dst s)

/-- Arithmetic slot 19 (R192). -/
def execA19 (rc : SrcKind) (wb : Width) (src dst : Reg) (s : State) : Host.Outcome State Fault Refusal :=
  .next (runSlot 19 rc wb src dst s)

/-- Arithmetic slot 20 (R193). -/
def execA20 (rc : SrcKind) (wb : Width) (src dst : Reg) (s : State) : Host.Outcome State Fault Refusal :=
  .next (runSlot 20 rc wb src dst s)

/-- Arithmetic slot 21 (R194). -/
def execA21 (rc : SrcKind) (wb : Width) (src dst : Reg) (s : State) : Host.Outcome State Fault Refusal :=
  .next (runSlot 21 rc wb src dst s)

/-- Arithmetic slot 22 (R195). -/
def execA22 (rc : SrcKind) (wb : Width) (src dst : Reg) (s : State) : Host.Outcome State Fault Refusal :=
  .next (runSlot 22 rc wb src dst s)

/-- Arithmetic slot 23 (R196). -/
def execA23 (rc : SrcKind) (wb : Width) (src dst : Reg) (s : State) : Host.Outcome State Fault Refusal :=
  .next (runSlot 23 rc wb src dst s)

/-- Arithmetic slot 24 (R197). -/
def execA24 (rc : SrcKind) (wb : Width) (src dst : Reg) (s : State) : Host.Outcome State Fault Refusal :=
  .next (runSlot 24 rc wb src dst s)

/-- Arithmetic slot 25 (R198). -/
def execA25 (rc : SrcKind) (wb : Width) (src dst : Reg) (s : State) : Host.Outcome State Fault Refusal :=
  .next (runSlot 25 rc wb src dst s)

/-- Arithmetic slot 26 (R199). -/
def execA26 (rc : SrcKind) (wb : Width) (src dst : Reg) (s : State) : Host.Outcome State Fault Refusal :=
  .next (runSlot 26 rc wb src dst s)

/-- Arithmetic slot 27 (R200). -/
def execA27 (rc : SrcKind) (wb : Width) (src dst : Reg) (s : State) : Host.Outcome State Fault Refusal :=
  .next (runSlot 27 rc wb src dst s)

/-- Arithmetic slot 28 (R201). -/
def execA28 (rc : SrcKind) (wb : Width) (src dst : Reg) (s : State) : Host.Outcome State Fault Refusal :=
  .next (runSlot 28 rc wb src dst s)

/-- Arithmetic slot 29 (R202). -/
def execA29 (rc : SrcKind) (wb : Width) (src dst : Reg) (s : State) : Host.Outcome State Fault Refusal :=
  .next (runSlot 29 rc wb src dst s)

/-- Arithmetic slot 30 (R203). -/
def execA30 (rc : SrcKind) (wb : Width) (src dst : Reg) (s : State) : Host.Outcome State Fault Refusal :=
  .next (runSlot 30 rc wb src dst s)

/-- Arithmetic slot 31 (R204). -/
def execA31 (rc : SrcKind) (wb : Width) (src dst : Reg) (s : State) : Host.Outcome State Fault Refusal :=
  .next (runSlot 31 rc wb src dst s)

end Sys2Proof.Machine
end

