-- ==== Sys2Proof/Machine/Flags.lean ====
section
/-! DEFINITION. The flags of the PSW (spec/10_state.md R31) and the eight branch conditions over them (spec/41_branch.md
R151 to R159). No instruction whose effect the spec gives computes a flag (R30, D36): BL, the branches, the loads, the
stores and the moves write R6 only as a named register, and what an arithmetic slot writes there is its handler's. -/

namespace Sys2Proof.Machine

/-- Bit `i` of a PSW value. -/
def pswBit (psw : Word) (i : Nat) : Bool := psw.getLsbD i

/-- The carry flag. -/
def flagC (l : PswLayout) (psw : Word) : Bool := pswBit psw l.c
/-- The zero flag. -/
def flagZ (l : PswLayout) (psw : Word) : Bool := pswBit psw l.z
/-- The negative flag. -/
def flagN (l : PswLayout) (psw : Word) : Bool := pswBit psw l.n
/-- The sleep flag; nothing in the CORE reads it (R284). -/
def flagSlp (l : PswLayout) (psw : Word) : Bool := pswBit psw l.slp
/-- The overflow flag. -/
def flagV (l : PswLayout) (psw : Word) : Bool := pswBit psw l.v

/-- The predicate of a branch condition over a PSW value (R152 to R159). -/
def condHolds (l : PswLayout) (c : Cond) (psw : Word) : Bool :=
  match c with
  | .eq => flagZ l psw
  | .ne => !flagZ l psw
  | .cs => flagC l psw
  | .cc => !flagC l psw
  | .neg => flagN l psw
  | .ge => !(flagN l psw ^^ flagV l psw)
  | .lt => flagN l psw ^^ flagV l psw
  | .al => true

end Sys2Proof.Machine
end

