-- ==== Sys2Proof/Machine/Operands.lean ====
section
/-! DEFINITION. The operand forms: the displacement of a branch (spec/30_encoding.md R92, R93), the effective address and
address-register update of LD and ST (spec/43_ld_st_movl_movlz.md R210), and the effective address of LDR and STR
(spec/45_relative.md R252). Every sum is modulo 2^16 (R28). -/

namespace Sys2Proof.Machine

/-- A target `base + 2 * sext_n(off)`, the raw field `off` in words (R92, R93). -/
def branchTarget {n : Nat} (base : Word) (off : BitVec n) : Word := base + 2 * signExtend off

/-- The size of a width in bytes: the step of R210. -/
def stepSize : Width → Word
  | .byte => 1
  | .word => 2

/-- `delta` of R210. -/
def indexDelta (dec inc : Bool) (w : Width) : Word :=
  if inc then stepSize w else if dec then -stepSize w else 0

/-- The address that LD or ST uses, for the address register's value `base` (R210). -/
def indexedAddress (prpo : IndexMode) (dec inc : Bool) (w : Width) (base : Word) : Word :=
  match prpo with
  | .pre => base + indexDelta dec inc w
  | .post => base

/-- The address register `r` after LD or ST has used it (R210): both modes modify it by `delta`. -/
def updateAddressReg (s : State) (r : Reg) (dec inc : Bool) (w : Width) : State :=
  s.setReg r (s.reg r + indexDelta dec inc w)

/-- `dec = inc = 1`, the reserved combination of LD and ST (R213). -/
def reservedIndexing (dec inc : Bool) : Bool := dec && inc

/-- The address that LDR or STR uses, `base + sext_7(off7)`: a signed byte displacement, not scaled (R94, R252). -/
def relativeAddress (base : Word) (off7 : BitVec 7) : Word := base + signExtend off7

end Sys2Proof.Machine
end

