-- ==== Sys2Proof/Machine/Branch.lean ====
section
/-! DEFINITION. BL and the conditional branches (spec/41_branch.md). At entry R7 holds the fetch address plus 2 (R130).
There is no delay slot (R160); BL and the branches write no flag (D12). The handlers are the
spec's reference profile (R5; UNVERIFIED, notes/assumptions/15.md, unsafe). -/

namespace Sys2Proof.Machine

/-- BL (R150): R4 receives the address of the next instruction, R7 the target. -/
def execBl (off12 : BitVec 12) (s : State) : Host.Outcome State Fault Refusal :=
  let ret := s.reg .pc
  .next ((s.setReg .lr ret).setReg .pc (branchTarget ret off12))

/-- The common rule of the branches (R151): where the condition holds of the current R6, R7 receives the target; else
nothing changes. -/
def branchIf (c : Cond) (off10 : BitVec 10) (s : State) : State :=
  if condHolds Config.pswLayout c (s.reg .psw) then s.setReg .pc (branchTarget (s.reg .pc) off10) else s

/-- BEQ: Z = 1 (R152). -/
def execBeq (off10 : BitVec 10) (s : State) : Host.Outcome State Fault Refusal := .next (branchIf .eq off10 s)

/-- BNE: Z = 0 (R153). -/
def execBne (off10 : BitVec 10) (s : State) : Host.Outcome State Fault Refusal := .next (branchIf .ne off10 s)

/-- BC: C = 1 (R154). -/
def execBc (off10 : BitVec 10) (s : State) : Host.Outcome State Fault Refusal := .next (branchIf .cs off10 s)

/-- BNC: C = 0 (R155). -/
def execBnc (off10 : BitVec 10) (s : State) : Host.Outcome State Fault Refusal := .next (branchIf .cc off10 s)

/-- BN: N = 1 (R156). -/
def execBn (off10 : BitVec 10) (s : State) : Host.Outcome State Fault Refusal := .next (branchIf .neg off10 s)

/-- BGE: N xor V = 0 (R157). -/
def execBge (off10 : BitVec 10) (s : State) : Host.Outcome State Fault Refusal := .next (branchIf .ge off10 s)

/-- BLT: N xor V = 1 (R158). -/
def execBlt (off10 : BitVec 10) (s : State) : Host.Outcome State Fault Refusal := .next (branchIf .lt off10 s)

/-- BAL: always (R159). -/
def execBal (off10 : BitVec 10) (s : State) : Host.Outcome State Fault Refusal := .next (branchIf .al off10 s)

end Sys2Proof.Machine
end

