-- ==== Sys2Proof/Machine/Indexed.lean ====
section
/-! DEFINITION. LD and ST (spec/43_ld_st_movl_movlz.md R210 to R213). The handlers are the
spec's reference profile (R5; UNVERIFIED, notes/assumptions/15.md, unsafe). -/

namespace Sys2Proof.Machine

/-- LD: the address register is `src`; its update comes before the destination's write, so that the loaded value wins when
they are one register (R211). The reserved combination is the no-op handler (R213). -/
def execLd (prpo : IndexMode) (dec inc : Bool) (wb : Width) (src dst : Reg) (s : State) :
    Host.Outcome State Fault Refusal :=
  let ea := indexedAddress prpo dec inc wb (s.reg src)
  .next (if reservedIndexing dec inc then noop s
    else (updateAddressReg s src dec inc wb).setReg dst (s.load ea wb))

/-- ST: the address register is `dst`; the value is sampled before any register update (R212). The reserved combination is
the no-op handler (R213). -/
def execSt (prpo : IndexMode) (dec inc : Bool) (wb : Width) (src dst : Reg) (s : State) :
    Host.Outcome State Fault Refusal :=
  let v := s.reg src
  let ea := indexedAddress prpo dec inc wb (s.reg dst)
  .next (if reservedIndexing dec inc then noop s
    else (updateAddressReg s dst dec inc wb).store ea wb v)

end Sys2Proof.Machine
end

