-- ==== Sys2Proof/Machine/Moves.lean ====
section
/-! DEFINITION. MOVL, MOVLZ (spec/43_ld_st_movl_movlz.md) and MOVH (spec/44_move_high.md). At entry R7 holds the fetch
address plus 2 (R130); a destination of R7 is a jump, a destination of R6 replaces flags. The handlers are the
spec's reference profile (R5; UNVERIFIED, notes/assumptions/15.md, unsafe). -/

namespace Sys2Proof.Machine

/-- MOVH: `x[dst] <- imm8 : x[dst][7:0]` (R240). -/
def execMovh (imm8 : Byte) (dst : Reg) (s : State) : Host.Outcome State Fault Refusal :=
  .next (s.setReg dst (joinBytes imm8 (lowByte (s.reg dst))))

/-- MOVL: `x[dst] <- x[dst][15:8] : imm8` (R214). -/
def execMovl (imm8 : Byte) (dst : Reg) (s : State) : Host.Outcome State Fault Refusal :=
  .next (s.setReg dst (joinBytes (highByte (s.reg dst)) imm8))

/-- MOVLZ: `x[dst] <- zext_8(imm8)` (R215). -/
def execMovlz (imm8 : Byte) (dst : Reg) (s : State) : Host.Outcome State Fault Refusal :=
  .next (s.setReg dst (zeroExtend imm8))

end Sys2Proof.Machine
end

