-- ==== Sys2Proof/Machine/Relative.lean ====
section
/-! DEFINITION. LDR and STR (spec/45_relative.md R250 to R252). The base register is not modified. The handlers are the
spec's reference profile (R5; UNVERIFIED, notes/assumptions/15.md, unsafe). -/

namespace Sys2Proof.Machine

/-- LDR: the base is `src`; a byte is zero-extended into all 16 bits of `dst` (R250). -/
def execLdr (off7 : BitVec 7) (wb : Width) (src dst : Reg) (s : State) : Host.Outcome State Fault Refusal :=
  .next (s.setReg dst (s.load (relativeAddress (s.reg src) off7) wb))

/-- STR: the base is `dst`, the value is `src` (R251). -/
def execStr (off7 : BitVec 7) (wb : Width) (src dst : Reg) (s : State) : Host.Outcome State Fault Refusal :=
  .next (s.store (relativeAddress (s.reg dst) off7) wb (s.reg src))

end Sys2Proof.Machine
end

