-- ==== Sys2Proof/Machine/Dispatch.lean ====
section
/-! DEFINITION. The dispatch of EXECUTE (spec/40_fde_engine.md R126): one handler for each instruction. -/

namespace Sys2Proof.Machine

def exec (i : Instr) (s : State) : Host.Outcome State Fault Refusal :=
  match i with
  | .movh imm8 dst => Sys2Proof.Machine.execMovh imm8 dst s
  | .bl off => Sys2Proof.Machine.execBl off s
  | .beq off => Sys2Proof.Machine.execBeq off s
  | .bne off => Sys2Proof.Machine.execBne off s
  | .bc off => Sys2Proof.Machine.execBc off s
  | .bnc off => Sys2Proof.Machine.execBnc off s
  | .bn off => Sys2Proof.Machine.execBn off s
  | .bge off => Sys2Proof.Machine.execBge off s
  | .blt off => Sys2Proof.Machine.execBlt off s
  | .bal off => Sys2Proof.Machine.execBal off s
  | .a0 rc wb src dst => Sys2Proof.Machine.execA0 rc wb src dst s
  | .a1 rc wb src dst => Sys2Proof.Machine.execA1 rc wb src dst s
  | .a2 rc wb src dst => Sys2Proof.Machine.execA2 rc wb src dst s
  | .a3 rc wb src dst => Sys2Proof.Machine.execA3 rc wb src dst s
  | .a4 rc wb src dst => Sys2Proof.Machine.execA4 rc wb src dst s
  | .a5 rc wb src dst => Sys2Proof.Machine.execA5 rc wb src dst s
  | .a6 rc wb src dst => Sys2Proof.Machine.execA6 rc wb src dst s
  | .a7 rc wb src dst => Sys2Proof.Machine.execA7 rc wb src dst s
  | .a8 rc wb src dst => Sys2Proof.Machine.execA8 rc wb src dst s
  | .a9 rc wb src dst => Sys2Proof.Machine.execA9 rc wb src dst s
  | .a10 rc wb src dst => Sys2Proof.Machine.execA10 rc wb src dst s
  | .a11 rc wb src dst => Sys2Proof.Machine.execA11 rc wb src dst s
  | .a12 rc wb src dst => Sys2Proof.Machine.execA12 rc wb src dst s
  | .a13 rc wb src dst => Sys2Proof.Machine.execA13 rc wb src dst s
  | .a14 rc wb src dst => Sys2Proof.Machine.execA14 rc wb src dst s
  | .a15 rc wb src dst => Sys2Proof.Machine.execA15 rc wb src dst s
  | .a16 rc wb src dst => Sys2Proof.Machine.execA16 rc wb src dst s
  | .a17 rc wb src dst => Sys2Proof.Machine.execA17 rc wb src dst s
  | .a18 rc wb src dst => Sys2Proof.Machine.execA18 rc wb src dst s
  | .a19 rc wb src dst => Sys2Proof.Machine.execA19 rc wb src dst s
  | .a20 rc wb src dst => Sys2Proof.Machine.execA20 rc wb src dst s
  | .a21 rc wb src dst => Sys2Proof.Machine.execA21 rc wb src dst s
  | .a22 rc wb src dst => Sys2Proof.Machine.execA22 rc wb src dst s
  | .a23 rc wb src dst => Sys2Proof.Machine.execA23 rc wb src dst s
  | .a24 rc wb src dst => Sys2Proof.Machine.execA24 rc wb src dst s
  | .a25 rc wb src dst => Sys2Proof.Machine.execA25 rc wb src dst s
  | .a26 rc wb src dst => Sys2Proof.Machine.execA26 rc wb src dst s
  | .a27 rc wb src dst => Sys2Proof.Machine.execA27 rc wb src dst s
  | .a28 rc wb src dst => Sys2Proof.Machine.execA28 rc wb src dst s
  | .a29 rc wb src dst => Sys2Proof.Machine.execA29 rc wb src dst s
  | .a30 rc wb src dst => Sys2Proof.Machine.execA30 rc wb src dst s
  | .a31 rc wb src dst => Sys2Proof.Machine.execA31 rc wb src dst s
  | .ld prpo dec inc wb src dst => Sys2Proof.Machine.execLd prpo dec inc wb src dst s
  | .st prpo dec inc wb src dst => Sys2Proof.Machine.execSt prpo dec inc wb src dst s
  | .movl imm8 dst => Sys2Proof.Machine.execMovl imm8 dst s
  | .movlz imm8 dst => Sys2Proof.Machine.execMovlz imm8 dst s
  | .ldr off wb src dst => Sys2Proof.Machine.execLdr off wb src dst s
  | .str off wb src dst => Sys2Proof.Machine.execStr off wb src dst s

end Sys2Proof.Machine
end

