-- ==== Sys2Proof/Machine/HostPort.lean ====
section
/-! DEFINITION. The host's moves (spec/60_exceptions.md R286): launch, cancel, and reading the final state. The host has no
other move: that it writes no register, byte, clock or phase during a run is an assumption, which R286 asks a model to
record (DESIGN CHOICE, notes/assumptions/19.md, unsafe). -/

namespace Sys2Proof.Machine

/-- What the loader supplies before a run (R300, R301): `RESET_REGS`, `RESET_PC`, `RESET_MEM` and the device collaborator
with its initial state. `regs.r7` is not used: R7 starts as `pc`. -/
structure Launch where
  regs  : RegFile
  pc    : Word
  image : List (Word × Byte)
  dev   : Option Nat
  deriving DecidableEq, Repr

/-- The memory that an image leaves, its entries placed in order. -/
def imageMemory (image : List (Word × Byte)) : Memory :=
  image.foldl (fun m cell => Memory.writeAt m cell.1 cell.2) []

/-- Entry to `RunMachine` from a launch state (R300): run-flag true, clock 0, phase FETCH, the rest as the loader supplies
it. A fresh run after a run has ended is a launch again (R302). `signals` is the host's input to come (R273). -/
def State.launch (l : Launch) (signals : List Bool) : State where
  regs := l.regs.set .pc l.pc
  mem := imageMemory l.image
  clk := 0
  run := true
  phase := .fetch
  ir := none
  dev := l.dev
  signals := signals

/-- The cancellation signal that the host raises in the cycle just completed, if it raises one (R273). A signal that
arrives during a cycle has the effect of one that arrives after it (R274); a repeated one has no further effect (R275).
Clearing the run-flag is all that the host does during a run: it has no write move (DESIGN CHOICE,
notes/assumptions/19.md, unsafe). -/
def State.takeSignal (s : State) : State :=
  match s.signals with
  | [] => s
  | raised :: later => if raised then { s with signals := later }.cancel else { s with signals := later }

/-- The loop has exited: the run-flag is false at the top of the loop (R67, R121). -/
def State.paused (s : State) : Bool := !s.run && s.phase == .fetch

/-- What a debugger reads (R67, R283, R286): registers, memory and the System Clock. -/
structure Inspection where
  regs : RegFile
  mem  : Memory
  clk  : Nat
  deriving DecidableEq, Repr

/-- The host reads the state: only while the engine is paused. A read while it runs has no defined result and is refused
(R67, I13). DESIGN CHOICE (notes/assumptions/14.md), safe. -/
def State.inspect (s : State) : Except Refusal Inspection :=
  if s.paused then .ok { regs := s.regs, mem := s.mem, clk := s.clk } else .error .inspectedWhileRunning

end Sys2Proof.Machine
end

