-- ==== Sys2Proof/Machine/Engine.lean ====
section
/-! DEFINITION. The fetch-decode-execute engine (spec/40_fde_engine.md): the four phases, each as the engine performs it,
and the whole cycle, which is the machine's one step (R132). -/

namespace Sys2Proof.Machine

/-- The bus read of FETCH at address `a`, which is never the halt address (R59, R122). -/
def fetchWord (m : Memory) (a : Word) : Word := busRead m a .word

/-- What FETCH produces from a word: the word, or the sentinel where the implementation's sentinel is in band and equal to
it (R122). -/
def fetched (sentinel : Option Word) (w : Word) : Option Word :=
  if sentinel = some w then none else some w

/-- The outcome of the fetch at address `a` (R122): no bus access is made at the halt address. -/
def fetchResult (m : Memory) (a : Word) : Option Word :=
  if a = Config.haltAddress then none else fetched Config.sentinelInBand (fetchWord m a)

/-- FETCH: the read (R122), then the PC's advance, whatever the read gave (R123); an idle cycle goes straight to
HANDLE_DEVICES (R124). -/
def fetchPhase (s : State) : State :=
  let a := s.reg .pc
  let ir := fetchResult s.mem a
  ((s.setIr ir).setReg .pc (a + 2)).setPhase (if ir = none then .handleDevices else .decode)

/-- DECODE reads no state but the fetched word and writes none; it always goes to EXECUTE (R125). -/
def decodePhase (s : State) : State := s.setPhase .execute

/-- EXECUTE: the handler of the decoded instruction (R126), then the clock (R127), then HANDLE_DEVICES. The sentinel
never reaches EXECUTE (R124); a state in which it has does nothing here (DESIGN CHOICE, notes/assumptions/17.md, safe). -/
def executePhase (s : State) : Host.Outcome State Fault Refusal :=
  match s.ir with
  | none => .next (s.setPhase .handleDevices)
  | some w =>
    match exec (decode w) s with
    | .next t => .next (t.tickClock.setPhase .handleDevices)
    | .fault r => .fault r
    | .refused r => .refused r

/-- The device hook (R128): nothing where no device is present ("no-op if absent"), else the collaborator's service. -/
def serviceDevices (s : State) : State :=
  match s.dev with
  | none => s
  | some d => s.applyDevice (Config.deviceService d s.regs (Memory.readAt s.mem))

/-- HANDLE_DEVICES: the device hook, then back to FETCH (R128). The fetched word does not survive the cycle (R37), and a
signal that the host raised in this cycle is seen at the next poll (R121, R274). -/
def devicesPhase (s : State) : State :=
  (((serviceDevices s).setIr none).setPhase .fetch).takeSignal

/-- One transition of the phase machine (R36, R120); the run-flag is polled before FETCH only (R121). -/
def tick (s : State) : Host.Outcome State Fault Refusal :=
  match s.phase with
  | .fetch => .next (if s.run then fetchPhase s else s)
  | .decode => .next (decodePhase s)
  | .execute => executePhase s
  | .handleDevices => .next (devicesPhase s)

/-- The rest of a cycle from EXECUTE on. -/
def fromExecute (s : State) : Host.Outcome State Fault Refusal :=
  match executePhase s with
  | .next t => .next (devicesPhase t)
  | .fault r => .fault r
  | .refused r => .refused r

/-- The rest of a cycle from the outcome of FETCH on (R124, R125). -/
def afterFetch (s : State) : Host.Outcome State Fault Refusal :=
  match s.ir with
  | none => .next (devicesPhase s)
  | some _ => fromExecute (decodePhase s)

/-- The engine's step: a whole cycle (R132), from the top of the loop to the top of the loop. Where the run-flag is false
there, the loop has exited and nothing changes any more (R121, R133). From a state in the middle of a cycle it is the rest
of that cycle, which a false run-flag does not cut short (R121). DEDUCED (notes/assumptions/6.md) and, for the ended run,
DESIGN CHOICE (notes/assumptions/7.md): safe. -/
def cycle (s : State) : Host.Outcome State Fault Refusal :=
  match s.phase with
  | .fetch => if s.run then afterFetch (fetchPhase s) else .next s
  | .decode => fromExecute (decodePhase s)
  | .execute => fromExecute s
  | .handleDevices => .next (devicesPhase s)

/-- Where a test's instruction word is placed: at the PC, or at 0 where the PC is the halt address, which is never
fetched. -/
def placementAddress (s : State) : Word :=
  if s.reg .pc = Config.haltAddress then 0 else s.reg .pc

/-- `s` at the top of the loop, running, with `w` in memory where it fetches next. -/
def placeWord (s : State) (w : Word) : State :=
  let a := placementAddress s
  { (s.setReg .pc a).store a .word w with run := true, phase := .fetch, ir := none }

end Sys2Proof.Machine
end

