-- ==== Sys2Proof/Machine/Step.lean ====
section
/-! DEFINITION. The machine's step: one FDE cycle (spec/40_fde_engine.md R132). -/

namespace Sys2Proof.Machine

/-- One cycle of the engine, and nothing once the run has ended. -/
def step (s : State) : Host.Outcome State Fault Refusal := cycle s

/-- `s` with the instruction word whose low `nbits` bits are those of `w` placed where `step` fetches next. It stands for
the load of a program from outside the machine (R300, R303). DESIGN CHOICE (notes/assumptions/11.md), safe. -/
def State.withFetchWord (s : State) (nbits w : Nat) : State := placeWord s (BitVec.ofNat 16 (w % 2 ^ nbits))

end Sys2Proof.Machine
end

