-- ==== Sys2Proof/Asm.lean ====
section
/-! DEFINITION. The assembler's forms (spec/30_encoding.md R107, R108, R109): a property of the tool, not of the hardware.
The model keeps their abstract syntax and the words they stand for; how a line of text is read (comments, number
notation) is left out (DESIGN CHOICE, notes/assumptions/16.md, safe). -/

namespace Sys2Proof.Asm

/-- The marker on the address register of LD or ST (R108). -/
inductive Marker where
  /-- `Rs` -/
  | plain
  /-- `Rs+` -/
  | postInc
  /-- `Rs-` -/
  | postDec
  /-- `+Rs` -/
  | preInc
  /-- `-Rs` -/
  | preDec
  /-- `!Rs`: pre-index, no modification -/
  | preKeep
  /-- `Rs+-`: reserved -/
  | postBoth
  /-- `+-Rs`: reserved -/
  | preBoth
  deriving DecidableEq, Repr

/-- The fields `prpo`, `dec`, `inc` of a marker (R108). -/
def Marker.fields : Marker → IndexMode × Bool × Bool
  | .plain => (.post, false, false)
  | .postInc => (.post, false, true)
  | .postDec => (.post, true, false)
  | .preInc => (.pre, false, true)
  | .preDec => (.pre, true, false)
  | .preKeep => (.pre, false, false)
  | .postBoth => (.post, true, true)
  | .preBoth => (.pre, true, true)

/-- A statement of the assembler: an instruction with its operands as R108 writes them (a branch names its target), a
pseudo-instruction of R109, or `.WORD` (R107). BZ and BNZ are BEQ and BNE (R108). -/
inductive Stmt where
  | movh (imm8 : Byte) (dst : Reg)
  | bl (target : Word)
  | branch (cond : Cond) (target : Word)
  | arith (k : Fin 32) (rc : SrcKind) (wb : Width) (src dst : Reg)
  | ld (wb : Width) (mark : Marker) (src dst : Reg)
  | st (wb : Width) (mark : Marker) (src dst : Reg)
  | movl (imm8 : Byte) (dst : Reg)
  | movlz (imm8 : Byte) (dst : Reg)
  | ldr (wb : Width) (off : Int) (src dst : Reg)
  | str (wb : Width) (off : Int) (src dst : Reg)
  | nop
  | b (target : Word)
  | call (target : Word)
  | movi (v : Word) (dst : Reg)
  | word (v : Word)
  deriving DecidableEq, Repr

/-- The word offset `(target - (a + 2)) / 2` of a branch at address `a`, where the distance is even (R108). The distance is
taken modulo 2^16 as a signed number (DESIGN CHOICE, notes/assumptions/12.md): a target wraps in the same way (R92). -/
def wordOffset (a target : Word) : Option Int :=
  let distance := (target - (a + 2)).toInt
  if distance % 2 = 0 then some (distance / 2) else none

/-- The field of `n + 1` bits that takes a branch at `a` to `target`; `none` where the assembler rejects the distance, odd or
out of range (R108). -/
def branchField (n : Nat) (a target : Word) : Option (BitVec (n + 1)) :=
  (wordOffset a target).bind (offsetField n)

/-- The instructions of a statement at address `a`; `none` where the assembler rejects it: an odd distance, or an offset out
of range (R108). -/
def Stmt.instrs (a : Word) : Stmt → Option (List Instr)
  | .movh imm8 dst => some [.movh imm8 dst]
  | .bl target => (branchField 11 a target).map fun off12 => [.bl off12]
  | .branch c target => (branchField 9 a target).map fun off10 => [branchInstr c off10]
  | .arith k rc wb src dst => some [slotInstr k.val rc wb src dst]
  | .ld wb mark src dst => some [.ld mark.fields.1 mark.fields.2.1 mark.fields.2.2 wb src dst]
  | .st wb mark src dst => some [.st mark.fields.1 mark.fields.2.1 mark.fields.2.2 wb src dst]
  | .movl imm8 dst => some [.movl imm8 dst]
  | .movlz imm8 dst => some [.movlz imm8 dst]
  | .ldr wb off src dst => (offsetField 6 off).map fun off7 => [.ldr off7 wb src dst]
  | .str wb off src dst => (offsetField 6 off).map fun off7 => [.str off7 wb src dst]
  | .nop => some [.bal 0]
  | .b target => (branchField 9 a target).map fun off10 => [.bal off10]
  | .call target => (branchField 11 a target).map fun off12 => [.bl off12]
  | .movi v dst => some [.movlz (Machine.lowByte v) dst, .movh (Machine.highByte v) dst]
  | .word _ => some []

/-- The words of a statement at address `a`; `none` where the assembler rejects it (R108). -/
def Stmt.words (a : Word) (stmt : Stmt) : Option (List Word) :=
  match stmt with
  | .word v => some [v]
  | _ => (stmt.instrs a).map fun is => is.map encode

/-- Words laid out from address `a` on, little-endian (R55, R303). -/
def layWords : Word → List Word → List (Word × Byte)
  | _, [] => []
  | a, w :: ws => (a, Machine.lowByte w) :: (a + 1, Machine.highByte w) :: layWords (a + 2) ws

/-- The image of a program whose first statement stands at `a` (`.ORG a`, R107). -/
def assemble : Word → List Stmt → Option (List (Word × Byte))
  | _, [] => some []
  | a, stmt :: rest =>
    match stmt.words a with
    | none => none
    | some ws =>
      match assemble (a + 2 * BitVec.ofNat 16 ws.length) rest with
      | none => none
      | some cells => some (layWords a ws ++ cells)

end Sys2Proof.Asm
end

