-- ==== Sys2Proof/Safety.lean ====
section
/-! DEFINITION. The words in which statements about the machine are written: the invariant of a state at the top of the
loop, what a handler leaves alone, the frame of each instruction, and the listed order of the tables. -/

namespace Sys2Proof.Machine

/-- The invariant of a state at the top of the loop: memory is in its canonical form, the phase is FETCH and no instruction
is in flight (R36, R37). -/
structure State.Inv (s : State) : Prop where
  canonical : s.mem.wf = true
  atFetch   : s.phase = .fetch
  noWord    : s.ir = none

/-- A safe run is one in which every step answers a next state (R270). -/
def AnswersNext (o : Host.Outcome State Fault Refusal) : Prop := ∃ t, o = .next t

/-- What no handler can change (R39), and the model's own input field. -/
structure EngineUnchanged (s t : State) : Prop where
  clk     : t.clk = s.clk
  run     : t.run = s.run
  phase   : t.phase = s.phase
  ir      : t.ir = s.ir
  dev     : t.dev = s.dev
  signals : t.signals = s.signals

/-- The EXECUTE phase of the instruction `i` at `s`, whatever word it was fetched as, ends with its effect `t`, one more on
the System Clock, and HANDLE_DEVICES next (R127). -/
def CountedOnce (i : Instr) (s t : State) : Prop :=
  ∀ w, decode w = i →
    executePhase { s with ir := some w } = .next { t with ir := some w, clk := s.clk + 1, phase := .handleDevices }

/-- Two states agree on every byte of memory. -/
def SameBytes (s t : State) : Prop := ∀ a, t.byteAt a = s.byteAt a

/-- Two states agree on every register but those listed. -/
def SameRegsExcept (rs : List Reg) (s t : State) : Prop := ∀ r, r ∉ rs → t.reg r = s.reg r

/-- `a` is one of the bytes of an access of width `w` at `ea`: a word has the byte at `ea + 1` too, modulo 2^16 (R54). -/
def inAccess (ea : Word) (w : Width) (a : Word) : Bool :=
  a == ea || (w == .word && a == ea + 1)

/-- The registers that an instruction can change beside the PC's advance: its destination, the address register where LD
or ST modifies it, R7 of a branch, R4 and R7 of BL. A handler of an arithmetic slot can change any register (R171). -/
def writtenRegs : Instr → List Reg
  | .movh _ dst => [dst]
  | .bl _ => [.r4, .r7]
  | .beq _ => [.r7]
  | .bne _ => [.r7]
  | .bc _ => [.r7]
  | .bnc _ => [.r7]
  | .bn _ => [.r7]
  | .bge _ => [.r7]
  | .blt _ => [.r7]
  | .bal _ => [.r7]
  | .a0 _ _ _ _ => [.r0, .r1, .r2, .r3, .r4, .r5, .r6, .r7]
  | .a1 _ _ _ _ => [.r0, .r1, .r2, .r3, .r4, .r5, .r6, .r7]
  | .a2 _ _ _ _ => [.r0, .r1, .r2, .r3, .r4, .r5, .r6, .r7]
  | .a3 _ _ _ _ => [.r0, .r1, .r2, .r3, .r4, .r5, .r6, .r7]
  | .a4 _ _ _ _ => [.r0, .r1, .r2, .r3, .r4, .r5, .r6, .r7]
  | .a5 _ _ _ _ => [.r0, .r1, .r2, .r3, .r4, .r5, .r6, .r7]
  | .a6 _ _ _ _ => [.r0, .r1, .r2, .r3, .r4, .r5, .r6, .r7]
  | .a7 _ _ _ _ => [.r0, .r1, .r2, .r3, .r4, .r5, .r6, .r7]
  | .a8 _ _ _ _ => [.r0, .r1, .r2, .r3, .r4, .r5, .r6, .r7]
  | .a9 _ _ _ _ => [.r0, .r1, .r2, .r3, .r4, .r5, .r6, .r7]
  | .a10 _ _ _ _ => [.r0, .r1, .r2, .r3, .r4, .r5, .r6, .r7]
  | .a11 _ _ _ _ => [.r0, .r1, .r2, .r3, .r4, .r5, .r6, .r7]
  | .a12 _ _ _ _ => [.r0, .r1, .r2, .r3, .r4, .r5, .r6, .r7]
  | .a13 _ _ _ _ => [.r0, .r1, .r2, .r3, .r4, .r5, .r6, .r7]
  | .a14 _ _ _ _ => [.r0, .r1, .r2, .r3, .r4, .r5, .r6, .r7]
  | .a15 _ _ _ _ => [.r0, .r1, .r2, .r3, .r4, .r5, .r6, .r7]
  | .a16 _ _ _ _ => [.r0, .r1, .r2, .r3, .r4, .r5, .r6, .r7]
  | .a17 _ _ _ _ => [.r0, .r1, .r2, .r3, .r4, .r5, .r6, .r7]
  | .a18 _ _ _ _ => [.r0, .r1, .r2, .r3, .r4, .r5, .r6, .r7]
  | .a19 _ _ _ _ => [.r0, .r1, .r2, .r3, .r4, .r5, .r6, .r7]
  | .a20 _ _ _ _ => [.r0, .r1, .r2, .r3, .r4, .r5, .r6, .r7]
  | .a21 _ _ _ _ => [.r0, .r1, .r2, .r3, .r4, .r5, .r6, .r7]
  | .a22 _ _ _ _ => [.r0, .r1, .r2, .r3, .r4, .r5, .r6, .r7]
  | .a23 _ _ _ _ => [.r0, .r1, .r2, .r3, .r4, .r5, .r6, .r7]
  | .a24 _ _ _ _ => [.r0, .r1, .r2, .r3, .r4, .r5, .r6, .r7]
  | .a25 _ _ _ _ => [.r0, .r1, .r2, .r3, .r4, .r5, .r6, .r7]
  | .a26 _ _ _ _ => [.r0, .r1, .r2, .r3, .r4, .r5, .r6, .r7]
  | .a27 _ _ _ _ => [.r0, .r1, .r2, .r3, .r4, .r5, .r6, .r7]
  | .a28 _ _ _ _ => [.r0, .r1, .r2, .r3, .r4, .r5, .r6, .r7]
  | .a29 _ _ _ _ => [.r0, .r1, .r2, .r3, .r4, .r5, .r6, .r7]
  | .a30 _ _ _ _ => [.r0, .r1, .r2, .r3, .r4, .r5, .r6, .r7]
  | .a31 _ _ _ _ => [.r0, .r1, .r2, .r3, .r4, .r5, .r6, .r7]
  | .ld _ dec inc _ src dst => if dec && inc then [] else if dec || inc then [src, dst] else [dst]
  | .st _ dec inc _ _ dst => if dec == inc then [] else [dst]
  | .movl _ dst => [dst]
  | .movlz _ dst => [dst]
  | .ldr _ _ _ dst => [dst]
  | .str _ _ _ _ => []

/-- The byte at `a` is one that the instruction stores at `s`. A handler of an arithmetic slot can store to any byte
(R171). -/
def storesAt (i : Instr) (s : State) (a : Word) : Bool :=
  match i with
  | .movh _ _ => false
  | .bl _ => false
  | .beq _ => false
  | .bne _ => false
  | .bc _ => false
  | .bnc _ => false
  | .bn _ => false
  | .bge _ => false
  | .blt _ => false
  | .bal _ => false
  | .a0 _ _ _ _ => true
  | .a1 _ _ _ _ => true
  | .a2 _ _ _ _ => true
  | .a3 _ _ _ _ => true
  | .a4 _ _ _ _ => true
  | .a5 _ _ _ _ => true
  | .a6 _ _ _ _ => true
  | .a7 _ _ _ _ => true
  | .a8 _ _ _ _ => true
  | .a9 _ _ _ _ => true
  | .a10 _ _ _ _ => true
  | .a11 _ _ _ _ => true
  | .a12 _ _ _ _ => true
  | .a13 _ _ _ _ => true
  | .a14 _ _ _ _ => true
  | .a15 _ _ _ _ => true
  | .a16 _ _ _ _ => true
  | .a17 _ _ _ _ => true
  | .a18 _ _ _ _ => true
  | .a19 _ _ _ _ => true
  | .a20 _ _ _ _ => true
  | .a21 _ _ _ _ => true
  | .a22 _ _ _ _ => true
  | .a23 _ _ _ _ => true
  | .a24 _ _ _ _ => true
  | .a25 _ _ _ _ => true
  | .a26 _ _ _ _ => true
  | .a27 _ _ _ _ => true
  | .a28 _ _ _ _ => true
  | .a29 _ _ _ _ => true
  | .a30 _ _ _ _ => true
  | .a31 _ _ _ _ => true
  | .ld _ _ _ _ _ _ => false
  | .st prpo dec inc wb _ dst =>
    !(dec && inc) && inAccess (indexedAddress prpo dec inc wb (s.reg dst)) wb a
  | .movl _ _ => false
  | .movlz _ _ => false
  | .ldr _ _ _ _ => false
  | .str off wb _ dst => inAccess (relativeAddress (s.reg dst) off) wb a

/-- The registers in the order of their indices (R21). -/
def registersInOrder : List Reg := [.r0, .r1, .r2, .r3, .r4, .r5, .r6, .r7]

/-- The conditional branches in the order of the branch-condition table (R99). -/
def branchesInOrder : List (BitVec 10 → Instr) :=
  [.beq, .bne, .bc, .bnc, .bn, .bge, .blt, .bal]

/-- The arithmetic instructions in the order of their slots (R173 to R204). -/
def slotsInOrder : List (SrcKind → Width → Reg → Reg → Instr) :=
  [.a0, .a1, .a2, .a3, .a4, .a5, .a6, .a7,
   .a8, .a9, .a10, .a11, .a12, .a13, .a14, .a15,
   .a16, .a17, .a18, .a19, .a20, .a21, .a22, .a23,
   .a24, .a25, .a26, .a27, .a28, .a29, .a30, .a31]

/-- The register that a 3-bit field names. -/
def registerAt (b : BitVec 3) : Reg := registersInOrder.getD b.toNat .r7

/-- The branch that a 3-bit condition field selects. -/
def branchAt (b : BitVec 3) : BitVec 10 → Instr := branchesInOrder.getD b.toNat .bal

/-- The instruction that a 5-bit arithmetic opcode selects. -/
def slotAt (k : Fin 32) : SrcKind → Width → Reg → Reg → Instr := slotsInOrder.getD k.val .a31

/-- `k` transitions of the phase machine. -/
def ticks : Nat → State → Host.Outcome State Fault Refusal
  | 0, s => .next s
  | k + 1, s =>
    match tick s with
    | .next t => ticks k t
    | .fault r => .fault r
    | .refused r => .refused r

end Sys2Proof.Machine
end

