-- ==== Sys2Proof/Certificates/Slice0/Obligations.lean ====
section
/-! DEFINITION. The statements for the provers. Each docstring names the rules of spec/ that its statement formalises. -/

open Sys2Proof Sys2Proof.Machine

/-! ### Encoding -/

/-- The encoder and the decoder agree on every well-formed instruction (spec/30_encoding.md section 3). -/
def Obligations.DecodeOfEncode : Prop :=
  ∀ i : Instr, i.wellFormed = true → decode (encode i) = i

/-- Encoding a decoded word gives the word back, with the bits that are in no field cleared: bit 11 of MOVH, bit 7 of LD
and ST (R103). No other bit of any word is dropped. -/
def Obligations.EncodeOfDecode : Prop :=
  ∀ w : Word, encode (decode w) =
    if w.toNat < 0x1000 then w &&& 0xF7FF
    else if 0x6000 ≤ w.toNat ∧ w.toNat < 0x7000 then w &&& 0xFF7F
    else w

/-- Every word decodes to a well-formed instruction, and every well-formed instruction is the decoding of a word. The offset
fields hold just the numbers of R92, R93 and R94, and a target and an address are the base plus the number that their field
holds, twice that number for BL and the branches. -/
def Obligations.DecodedInstructionsAreWellFormed : Prop :=
  (∀ w : Word, (decode w).wellFormed = true) ∧ (∀ i : Instr, i.wellFormed = true → ∃ w, decode w = i) ∧
  (∀ off : Int,
    ((offsetField 11 off).isSome = true ↔ -2048 ≤ off ∧ off ≤ 2047) ∧
    ((offsetField 9 off).isSome = true ↔ -512 ≤ off ∧ off ≤ 511) ∧
    ((offsetField 6 off).isSome = true ↔ -64 ≤ off ∧ off ≤ 63)) ∧
  (∀ (base : Word) (off : Int),
    (∀ off12, offsetField 11 off = some off12 → branchTarget base off12 = base + BitVec.ofInt 16 (2 * off)) ∧
    (∀ off10, offsetField 9 off = some off10 → branchTarget base off10 = base + BitVec.ofInt 16 (2 * off)) ∧
    (∀ off7, offsetField 6 off = some off7 → relativeAddress base off7 = base + BitVec.ofInt 16 off))

/-- The class of a word is the one of its range, and the fields of each format decode to that format's operands, raw, at
the widths of R98 (R82, R84 to R91, R96, R97, R99). -/
def Obligations.WordsDecodeByClassAndFormat : Prop :=
  (∀ w : Word, classify w =
    if w.toNat < 0x1000 then .moveHigh
    else if w.toNat < 0x2000 then .branchAndLink
    else if w.toNat < 0x4000 then .branch
    else if w.toNat < 0x6000 then .arithmetic
    else if w.toNat < 0x8000 then .ldStMovlMovlz
    else if w.toNat < 0xC000 then .loadRelative
    else .storeRelative) ∧
  (∀ (x : BitVec 1) (imm8 : BitVec 8) (dst : BitVec 3),
    decode (0b0000#4 ++ x ++ imm8 ++ dst) = .movh imm8 (registerAt dst)) ∧
  (∀ off12 : BitVec 12, decode (0b0001#4 ++ off12) = .bl off12) ∧
  (∀ (cond : BitVec 3) (off10 : BitVec 10), decode (0b001#3 ++ cond ++ off10) = branchAt cond off10) ∧
  (∀ (op : BitVec 5) (rc wb : BitVec 1) (src dst : BitVec 3),
    decode (0b010#3 ++ op ++ rc ++ wb ++ src ++ dst) =
      slotAt op.toFin (if rc = 1 then .constant else .register) (if wb = 1 then .byte else .word)
        (registerAt src) (registerAt dst)) ∧
  (∀ (prpo dec inc x wb : BitVec 1) (src dst : BitVec 3),
    decode (0b01100#5 ++ prpo ++ dec ++ inc ++ x ++ wb ++ src ++ dst) =
      .ld (if prpo = 1 then .pre else .post) (decide (dec = 1)) (decide (inc = 1)) (if wb = 1 then .byte else .word)
        (registerAt src) (registerAt dst)) ∧
  (∀ (prpo dec inc x wb : BitVec 1) (src dst : BitVec 3),
    decode (0b01101#5 ++ prpo ++ dec ++ inc ++ x ++ wb ++ src ++ dst) =
      .st (if prpo = 1 then .pre else .post) (decide (dec = 1)) (decide (inc = 1)) (if wb = 1 then .byte else .word)
        (registerAt src) (registerAt dst)) ∧
  (∀ (imm8 : BitVec 8) (dst : BitVec 3), decode (0b01110#5 ++ imm8 ++ dst) = .movl imm8 (registerAt dst)) ∧
  (∀ (imm8 : BitVec 8) (dst : BitVec 3), decode (0b01111#5 ++ imm8 ++ dst) = .movlz imm8 (registerAt dst)) ∧
  (∀ (off7 : BitVec 7) (wb : BitVec 1) (src dst : BitVec 3),
    decode (0b10#2 ++ off7 ++ wb ++ src ++ dst) =
      .ldr off7 (if wb = 1 then .byte else .word) (registerAt src) (registerAt dst)) ∧
  (∀ (off7 : BitVec 7) (wb : BitVec 1) (src dst : BitVec 3),
    decode (0b11#2 ++ off7 ++ wb ++ src ++ dst) =
      .str off7 (if wb = 1 then .byte else .word) (registerAt src) (registerAt dst))

/-- Exactly one row of the opcode table fits each of the 65,536 words, and it is the row of the decoded instruction
(R83, R104). -/
def Obligations.OneOpcodeRowFitsEachWord : Prop :=
  ∀ w : Word, (opcodeTable.filter fun row => row.fits w).map OpcodeRow.mnemonic = [(decode w).mnemonic]

/-- Two words that differ only in bit 11 of MOVH, or only in bit 7 of LD or ST, decode to one instruction, and the encoder
writes those bits as 0 (R103). -/
def Obligations.IgnoredBitsDoNotMatter : Prop :=
  (∀ w : Word, w.toNat < 0x1000 → decode (w ^^^ 0x0800) = decode w) ∧
  (∀ w : Word, 0x6000 ≤ w.toNat → w.toNat < 0x7000 → decode (w ^^^ 0x0080) = decode w) ∧
  (∀ (imm8 : Byte) (dst : Reg), (encode (.movh imm8 dst)).getLsbD 11 = false) ∧
  (∀ (prpo : IndexMode) (dec inc : Bool) (wb : Width) (src dst : Reg),
    (encode (.ld prpo dec inc wb src dst)).getLsbD 7 = false ∧ (encode (.st prpo dec inc wb src dst)).getLsbD 7 = false)

/-- A word of each family decodes to the instruction that the spec's examples and vectors say (R150, R152, R173, R211,
R212, R214, R215, R240, R250, R251; spec/95_test_vectors.md L2.1). -/
def Obligations.SampleWordsDecode : Prop :=
  decode 0x0091 = .movh 0x12 .r1 ∧ decode 0x0891 = .movh 0x12 .r1 ∧ decode 0x1004 = .bl 0x004 ∧ decode 0x1FFF = .bl 0xFFF ∧
  decode 0x2003 = .beq 3 ∧ decode 0x27FE = .bne 0x3FE ∧ decode 0x3DFF = .bal 0x1FF ∧
  decode 0x400A = .a0 .register .word .r1 .r2 ∧ decode 0x5FFF = .a31 .constant .byte .r7 .r7 ∧
  decode 0x614A = .ld .post false true .byte .r1 .r2 ∧ decode 0x6E13 = .st .pre true false .word .r2 .r3 ∧
  decode 0x71A1 = .movl 0x34 .r1 ∧ decode 0x79A1 = .movlz 0x34 .r1 ∧
  decode 0xBFCA = .ldr 0x7F .byte .r1 .r2 ∧ decode 0xC313 = .str 6 .word .r2 .r3

/-! ### Memory and the bus -/

/-- A byte read after a byte write gives the byte written, and every other byte is as before; the write keeps the canonical
form (R20's law for memory, R53, R62). -/
def Obligations.ByteReadAfterByteWrite : Prop :=
  ∀ (m : Memory) (a x : Word) (b : Byte), m.wf = true →
    (m.writeAt a b).wf = true ∧ (m.writeAt a b).readAt x = if x = a then b else m.readAt x

/-- Memory is a total function of the address (R50): every function from addresses to bytes is the contents of a
canonical memory, and two canonical memories with the same bytes are one. -/
def Obligations.MemoryIsATotalFunctionOfTheAddress : Prop :=
  (∀ f : Word → Byte, (Memory.ofContents f).wf = true ∧ ∀ a, (Memory.ofContents f).readAt a = f a) ∧
  (∀ m n : Memory, m.wf = true → n.wf = true → (∀ a, m.readAt a = n.readAt a) → m = n)

/-- What a bus read gives: a byte zero-extended (R51); a word little-endian, the second byte at the next address modulo
2^16 (R52). -/
def Obligations.BusReadsAreLittleEndian : Prop :=
  ∀ (m : Memory) (a : Word),
    (busRead m a .byte).toNat = (m.read a.toNat).toNat ∧
    (busRead m a .word).toNat = (m.read a.toNat).toNat + 256 * (m.read ((a.toNat + 1) % 65536)).toNat

/-- What a bus write stores: the low byte at the address (R53); for a word the high byte at the next address too, modulo
2^16 (R54). No other byte changes. -/
def Obligations.BusWritesStoreTheirBytesOnly : Prop :=
  ∀ (m : Memory) (a x v : Word), m.wf = true →
    (busWrite m a .byte v).readAt x = (if x = a then v.extractLsb' 0 8 else m.readAt x) ∧
    (busWrite m a .word v).readAt x =
      (if x = a then v.extractLsb' 0 8 else if x = a + 1 then v.extractLsb' 8 8 else m.readAt x)

/-- Mixed-width access (R56): bytes written at consecutive addresses read back as a word, low byte first; the bytes of a
word are read at its address and the next; and a byte write at `a + 1` changes bits 15:8 of the word at `a` alone. -/
def Obligations.MixedWidthAccessesAgree : Prop :=
  (∀ (m : Memory) (a : Word) (low high : Byte), m.wf = true →
    busRead ((m.writeAt a low).writeAt (a + 1) high) a .word = high ++ low) ∧
  (∀ (m : Memory) (a : Word),
    busRead m a .byte = (busRead m a .word) &&& 0x00FF ∧ busRead m (a + 1) .byte = (busRead m a .word) >>> 8) ∧
  (∀ (m : Memory) (a v : Word), m.wf = true →
    busRead (busWrite m (a + 1) .byte v) a .word = v.extractLsb' 0 8 ++ (busRead m a .word).extractLsb' 0 8)

/-! ### Branches -/

/-- BL (R150): its encoding, the link, the target, and nothing else but the clock's one count. -/
def Obligations.BranchAndLinkEffect : Prop :=
  ∀ (off12 : BitVec 12) (s : State),
    decode (0b0001#4 ++ off12) = .bl off12 ∧
    ∃ t, exec (.bl off12) s = .next t ∧
      t.reg .r4 = s.reg .r7 ∧ t.reg .r7 = s.reg .r7 + 2 * off12.signExtend 16 ∧
      SameRegsExcept [.r4, .r7] s t ∧ t.mem = s.mem ∧ EngineUnchanged s t ∧ CountedOnce (.bl off12) s t

/-- The eight conditional branches (R151 to R159): their encodings; each is taken under its own condition on the bits of R6, to the common
target, and changes nothing but R7 where taken and nothing at all where not; the clock counts it either way. The flags'
places and the predicates are the spec's decisions D10 and D11. -/
def Obligations.ConditionalBranchesFollowThePsw : Prop :=
  ∀ (off10 : BitVec 10) (s : State),
    let c := (s.reg .r6).getLsbD 0
    let z := (s.reg .r6).getLsbD 1
    let n := (s.reg .r6).getLsbD 2
    let v := (s.reg .r6).getLsbD 4
    let taken : State := { s with regs := s.regs.set .r7 (s.reg .r7 + 2 * off10.signExtend 16) }
    ∀ row ∈ [((0b000 : BitVec 3), Instr.beq off10, z), (0b001, .bne off10, !z), (0b010, .bc off10, c),
        (0b011, .bnc off10, !c), (0b100, .bn off10, n), (0b101, .bge off10, n == v),
        (0b110, .blt off10, n != v), (0b111, .bal off10, true)],
      decode (0b001#3 ++ row.1 ++ off10) = row.2.1 ∧
      ∃ t, exec row.2.1 s = .next t ∧ t = (if row.2.2 = true then taken else s) ∧ CountedOnce row.2.1 s t

/-- BL and the branches keep the parity of the PC: from an even PC they lead to an even one and from an odd PC to an odd
one, and no target is masked (R27, R150, R151). -/
def Obligations.BranchTargetsKeepThePcParity : Prop :=
  ∀ (off12 : BitVec 12) (off10 : BitVec 10) (s t : State) (i : Instr),
    i = .bl off12 ∨ i ∈ branchesInOrder.map (· off10) → exec i s = .next t →
    (t.reg .r7).getLsbD 0 = (s.reg .r7).getLsbD 0

/-- BL or CALL at `a`, and B or a branch whose condition holds, reach the target that the assembler made their word for; BL
and CALL put `a + 2` into R4 (R92, R93, R108, R109). The distance is taken modulo 2^16: the model's choice,
notes/assumptions/12.md. -/
def Obligations.AssembledBranchReachesItsTarget : Prop :=
  ∀ (a target w : Word) (s : State), s.reg .r7 = a + 2 →
    (∀ stmt ∈ [Asm.Stmt.bl target, .call target], stmt.words a = some [w] →
      ∃ t, exec (decode w) s = .next t ∧ t.reg .r7 = target ∧ t.reg .r4 = a + 2) ∧
    (∀ c : Cond, Asm.Stmt.words a (.branch c target) = some [w] → condHolds Config.pswLayout c (s.reg .r6) = true →
      ∃ t, exec (decode w) s = .next t ∧ t.reg .r7 = target) ∧
    (Asm.Stmt.words a (.b target) = some [w] → ∃ t, exec (decode w) s = .next t ∧ t.reg .r7 = target)

/-! ### Arithmetic slots -/

/-- Every arithmetic slot runs its entry of the dispatch table (R170, R172 to R204): a word `010kkkkkrwsssddd` is the
instruction of slot `k`; for every set of reserved slots and every table of handlers an entry gives the registers and the
bytes that its handler gives, or, in a reserved slot, changes nothing; the clock counts it either way. The 32 instructions
run the entries of this machine's table, which are free values (notes/assumptions/3.md). -/
def Obligations.ArithmeticSlotsRunTheirTableEntry : Prop :=
  (∀ (k : Fin 32) (rc : SrcKind) (wb : Width) (src dst : Reg) (s : State),
    decode (0b010#3 ++ BitVec.ofFin (w := 5) k ++ srcKindBit rc ++ widthBit wb ++ regBits src ++ regBits dst) =
      slotAt k rc wb src dst ∧
    ∃ t, exec (slotAt k rc wb src dst) s = .next t ∧
      t = slotEntry Config.arithReserved Config.arithTable k { rc := rc, wb := wb, src := src, dst := dst } s ∧
      CountedOnce (slotAt k rc wb src dst) s t) ∧
  (∀ (reserved : Fin 32 → Bool) (table : Fin 32 → ArithFields → RegFile → (Word → Byte) → HandlerEffect)
    (k : Fin 32) (f : ArithFields) (s : State),
    let t := slotEntry reserved table k f s
    let e := table k f s.regs s.byteAt
    (reserved k = true → t = s) ∧
    (reserved k = false → t.regs = e.regs ∧ (∀ a, t.byteAt a = e.mem a) ∧ t.mem.wf = true) ∧
    EngineUnchanged s t)

/-! ### Loads, stores and moves -/

/-- LD (R211, with R210's address): its encoding, the address before or after the modification, the address register moved
by the access size, the value read into the destination last, and nothing else but the clock's one count. R213's
combination has its own statement. The fields' places and polarity and this order are the spec's decisions D6, D9, D13. -/
def Obligations.IndexedLoadEffect : Prop :=
  ∀ (prpo : IndexMode) (dec inc : Bool) (wb : Width) (src dst : Reg) (s : State), (dec && inc) = false →
    let size : Word := if wb = .byte then 1 else 2
    let delta : Word := if inc = true then size else if dec = true then 0 - size else 0
    let ea : Word := if prpo = .pre then s.reg src + delta else s.reg src
    (∀ x : BitVec 1, decode (0b01100#5 ++ indexModeBit prpo ++ flagBit dec ++ flagBit inc ++ x ++ widthBit wb ++
      regBits src ++ regBits dst) = .ld prpo dec inc wb src dst) ∧
    ∃ t, exec (.ld prpo dec inc wb src dst) s = .next t ∧
      t.reg dst = (if wb = .byte then (s.byteAt ea).setWidth 16 else s.byteAt (ea + 1) ++ s.byteAt ea) ∧
      (src ≠ dst → t.reg src = s.reg src + delta) ∧
      SameRegsExcept [src, dst] s t ∧ t.mem = s.mem ∧ EngineUnchanged s t ∧
      CountedOnce (.ld prpo dec inc wb src dst) s t

/-- ST (R212, with R210's address): its encoding; the value is the register before any update; the bytes stored are at the
address that R210 gives for the address register; the address register moves by the access size; no other register and no
other byte changes; the clock counts it. These are the spec's decisions D6, D9, D13, D17. -/
def Obligations.IndexedStoreEffect : Prop :=
  ∀ (prpo : IndexMode) (dec inc : Bool) (wb : Width) (src dst : Reg) (s : State), (dec && inc) = false →
    let size : Word := if wb = .byte then 1 else 2
    let delta : Word := if inc = true then size else if dec = true then 0 - size else 0
    let ea : Word := if prpo = .pre then s.reg dst + delta else s.reg dst
    (∀ x : BitVec 1, decode (0b01101#5 ++ indexModeBit prpo ++ flagBit dec ++ flagBit inc ++ x ++ widthBit wb ++
      regBits src ++ regBits dst) = .st prpo dec inc wb src dst) ∧
    ∃ t, exec (.st prpo dec inc wb src dst) s = .next t ∧
      t.reg dst = s.reg dst + delta ∧ SameRegsExcept [dst] s t ∧ EngineUnchanged s t ∧
      CountedOnce (.st prpo dec inc wb src dst) s t ∧
      (s.mem.wf = true → ∀ a, t.byteAt a =
        if a = ea then (s.reg src).extractLsb' 0 8
        else if wb = .word ∧ a = ea + 1 then (s.reg src).extractLsb' 8 8
        else s.byteAt a)

/-- LD and ST with `dec = inc = 1` execute as the no-op handler: no register, flag or byte of memory changes, not even
the address register, and the clock counts them (R213). -/
def Obligations.ReservedIndexingIsANoOp : Prop :=
  ∀ (prpo : IndexMode) (wb : Width) (src dst : Reg) (s : State) (i : Instr),
    i = .ld prpo true true wb src dst ∨ i = .st prpo true true wb src dst →
    ∃ t, exec i s = .next t ∧ t = s ∧ CountedOnce i s t

/-- MOVL, MOVLZ and MOVH (R95, R214, R215, R240): their encodings, the immediate's place and what becomes of the other
byte, for every destination, R6 and R7 included; the immediate is never sign-extended, and nothing else changes but the
clock. MOVL and MOVLZ are the spec's decision D35. -/
def Obligations.ImmediateMovesPlaceTheirByte : Prop :=
  ∀ (imm8 : Byte) (dst : Reg) (s : State),
    decode (0b01110#5 ++ imm8 ++ regBits dst) = .movl imm8 dst ∧
    decode (0b01111#5 ++ imm8 ++ regBits dst) = .movlz imm8 dst ∧
    (∀ x : BitVec 1, decode (0b0000#4 ++ x ++ imm8 ++ regBits dst) = .movh imm8 dst) ∧
    ∀ row ∈ [(Instr.movl imm8 dst, (s.reg dst).extractLsb' 8 8 ++ imm8), (.movlz imm8 dst, 0#8 ++ imm8),
        (.movh imm8 dst, imm8 ++ (s.reg dst).extractLsb' 0 8)],
      ∃ t, exec row.1 s = .next t ∧ t.reg dst = row.2 ∧ SameRegsExcept [dst] s t ∧ t.mem = s.mem ∧
        EngineUnchanged s t ∧ CountedOnce row.1 s t

/-- A 16-bit constant in two instructions, into a register other than R7 (R109, R216): MOVLZ then MOVH, and MOVL with MOVH
in either order. MOVH then MOVLZ is left out: R215 clears the high byte (notes/assumptions/13.md). -/
def Obligations.TwoMovesLoadAConstant : Prop :=
  ∀ (v : Word) (d : Reg) (s : State), d ≠ .r7 →
    ∀ pair ∈ [(Instr.movlz (v.extractLsb' 0 8) d, Instr.movh (v.extractLsb' 8 8) d),
        (.movl (v.extractLsb' 0 8) d, .movh (v.extractLsb' 8 8) d),
        (.movh (v.extractLsb' 8 8) d, .movl (v.extractLsb' 0 8) d)],
      ∃ t u, exec pair.1 s = .next t ∧ exec pair.2 t = .next u ∧ u.reg d = v ∧ SameRegsExcept [d] s u

/-- LDR (R250, with R252's address): its encoding, the address from the base's old value and the signed byte displacement,
the value read into the destination, and nothing else but the clock's one count (the spec's decisions D8, D15, D16). -/
def Obligations.RelativeLoadEffect : Prop :=
  ∀ (off7 : BitVec 7) (wb : Width) (src dst : Reg) (s : State),
    let ea : Word := s.reg src + off7.signExtend 16
    decode (0b10#2 ++ off7 ++ widthBit wb ++ regBits src ++ regBits dst) = .ldr off7 wb src dst ∧
    ∃ t, exec (.ldr off7 wb src dst) s = .next t ∧
      t.reg dst = (if wb = .byte then (s.byteAt ea).setWidth 16 else s.byteAt (ea + 1) ++ s.byteAt ea) ∧
      SameRegsExcept [dst] s t ∧ t.mem = s.mem ∧ EngineUnchanged s t ∧ CountedOnce (.ldr off7 wb src dst) s t

/-- STR (R251, with R252's address): its encoding; the bytes stored are those of the value register, at the base plus the
signed byte displacement; no register and no other byte changes; the clock counts it (the spec's decisions D8, D15,
D17). -/
def Obligations.RelativeStoreEffect : Prop :=
  ∀ (off7 : BitVec 7) (wb : Width) (src dst : Reg) (s : State),
    let ea : Word := s.reg dst + off7.signExtend 16
    decode (0b11#2 ++ off7 ++ widthBit wb ++ regBits src ++ regBits dst) = .str off7 wb src dst ∧
    ∃ t, exec (.str off7 wb src dst) s = .next t ∧ t.regs = s.regs ∧ EngineUnchanged s t ∧
      CountedOnce (.str off7 wb src dst) s t ∧
      (s.mem.wf = true → ∀ a, t.byteAt a =
        if a = ea then (s.reg src).extractLsb' 0 8
        else if wb = .word ∧ a = ea + 1 then (s.reg src).extractLsb' 8 8
        else s.byteAt a)

/-! ### Frames over all instructions -/

/-- Every register is unchanged but an instruction's destination, the address register that LD or ST modifies, R7 of a
branch, and R4 and R7 of BL, which writes them without naming them: so R5 is never written implicitly (R23), R4 by BL alone
(R21), and no branch, load, store or move changes a flag except by naming R6 (R30). An arithmetic slot's handler may write
any register (R171), and of it nothing is claimed here. -/
def Obligations.RegisterFrame : Prop :=
  ∀ (i : Instr) (s t : State), exec i s = .next t → SameRegsExcept (writtenRegs i) s t

/-- Every byte of memory is unchanged but those that ST and STR store, at the address their meaning computes; the other
instructions but the arithmetic slots store nothing. -/
def Obligations.MemoryFrame : Prop :=
  ∀ (i : Instr) (s t : State) (a : Word), s.mem.wf = true → exec i s = .next t → storesAt i s a = false →
    t.byteAt a = s.byteAt a

/-- A handler's effect is confined to the register file and memory: it cannot change the System Clock, the run-flag, the
phase, the fetched word or the device state (R39, R171), and it keeps memory canonical. -/
def Obligations.HandlersChangeOnlyRegistersAndMemory : Prop :=
  ∀ (i : Instr) (s t : State), exec i s = .next t → EngineUnchanged s t ∧ (s.mem.wf = true → t.mem.wf = true)

/-! ### The engine -/

/-- A step runs the decoded instruction: where the two bytes at the PC are those of `i` and the PC is not the halt
address, a step at the top of the loop is FETCH (the PC advanced by 2, the word in `ir`), then `exec i`, then the clock's
count, then HANDLE_DEVICES; and with no device and no signal nothing is added to what `exec i` leaves but the clock's
count and the return to FETCH (R122, R123, R125 to R128, R131, R132). -/
def Obligations.StepRunsTheDecodedInstruction : Prop :=
  ∀ (s : State) (i : Instr), s.run = true → s.phase = .fetch → s.reg .r7 ≠ 0xFFFF →
    decodeBytes [s.byteAt (s.reg .r7), s.byteAt (s.reg .r7 + 1)] = .ok (i, []) →
    let entry : State :=
      { s with regs := s.regs.set .r7 (s.reg .r7 + 2), phase := .execute,
               ir := some (s.byteAt (s.reg .r7 + 1) ++ s.byteAt (s.reg .r7)) }
    ∀ t, exec i entry = .next t →
      step s = .next (devicesPhase { t with clk := t.clk + 1, phase := .handleDevices }) ∧
      (s.dev = none → s.signals = [] → step s = .next { t with clk := t.clk + 1, phase := .fetch, ir := none })

/-- FETCH advances the PC by exactly 2 modulo 2^16 after the read at the old PC, whether or not a word is fetched, and before
the outcome is acted on; it changes no other register, no byte of memory and not the clock (R28, R122, R123). -/
def Obligations.FetchAdvancesThePc : Prop :=
  ∀ s : State, (fetchPhase s).reg .r7 = s.reg .r7 + 2 ∧ SameRegsExcept [.r7] s (fetchPhase s) ∧
    (fetchPhase s).mem = s.mem ∧ (fetchPhase s).clk = s.clk ∧
    (fetchPhase s).ir = (if s.reg .r7 = 0xFFFF then none else some (s.byteAt (s.reg .r7 + 1) ++ s.byteAt (s.reg .r7))) ∧
    (fetchPhase s).phase = (if s.reg .r7 = 0xFFFF then .handleDevices else .decode)

/-- The halt address is never presented to the bus by FETCH: at 0xFFFF the outcome is the same for every memory, and no
word; at 0xFFFE the word is read with the byte at 0xFFFF as its high half (R59, R122). -/
def Obligations.HaltAddressIsNeverRead : Prop :=
  (∀ (s : State) (m : Memory), s.reg .r7 = 0xFFFF →
    fetchPhase { s with mem := m } = { fetchPhase s with mem := m } ∧ (fetchPhase s).ir = none) ∧
  (∀ s : State, s.reg .r7 = 0xFFFE → (fetchPhase s).ir = some (s.byteAt 0xFFFF ++ s.byteAt 0xFFFE))

/-- An idle cycle (R124, R136): at the halt address a step runs no handler and does not count; it ends at FETCH with no word
in flight. With no device every register but the PC, and all of memory, stay, and the next fetch address is 0x0001; with
one, its service acts on that state. The run-flag changes by the host's signal alone. The coding of the device and the list
of signals are the model's choice (notes/assumptions/4.md, 5.md). -/
def Obligations.IdleCycleAtTheHaltAddress : Prop :=
  ∀ s : State, s.run = true → s.phase = .fetch → s.reg .r7 = 0xFFFF →
    ∃ t, step s = .next t ∧ t.clk = s.clk ∧ t.phase = .fetch ∧ t.ir = none ∧ t.run = !(s.signals.head?.getD false) ∧
      t.signals = s.signals.tail ∧
      (s.dev = none → t.regs = s.regs.set .r7 0x0001 ∧ t.mem = s.mem ∧ t.dev = none) ∧
      (∀ d, s.dev = some d →
        let e := Config.deviceService d (s.regs.set .r7 0x0001) s.byteAt
        t.regs = e.regs ∧ (∀ a, t.byteAt a = e.mem a) ∧ t.dev = some e.dev)

/-- Nothing stops with a fault or a refusal: every instruction of the table, at every state and with every operand, answers
a next state (R83, R104, R270). That a step answers one at EVERY state is in part the model's choice: an ended run's step
answers the same state (notes/assumptions/7.md), a step from the middle of a cycle is the rest of it (6.md), and EXECUTE
without a word goes on (17.md). -/
def Obligations.EveryInstructionAndStepAnswersNext : Prop :=
  (∀ (i : Instr) (s : State), AnswersNext (exec i s)) ∧ ∀ s : State, AnswersNext (step s)

/-- The System Clock counts executed instructions: from the top of the loop a step adds 1 where an instruction reaches
EXECUTE, whatever it is, and 0 in an idle cycle (R34, R124, R127, R310). That an ended run still has a step, which adds 0,
is the model's choice (notes/assumptions/7.md). -/
def Obligations.ClockCountsExecutedInstructions : Prop :=
  ∀ s t : State, s.phase = .fetch → step s = .next t →
    t.clk = s.clk + if s.run = true ∧ s.reg .r7 ≠ 0xFFFF then 1 else 0

/-- The run-flag is cleared by the host's signal alone and never set again (R35, R273): no instruction, handler or device
service changes it. The list of signals to come is the model's own field (notes/assumptions/5.md), and that an ended run
still has a step is its choice (7.md). -/
def Obligations.OnlyASignalClearsTheRunFlag : Prop :=
  ∀ s t : State, s.phase = .fetch → step s = .next t → t.run = (s.run && !(s.signals.head?.getD false))

/-- A signal raised during a cycle lets the cycle complete, as it would have without the signal, HANDLE_DEVICES included;
the loop exits before the next FETCH (R121, R274), and a further signal changes nothing (R275). The list of signals to come
is the model's own field (notes/assumptions/5.md); that the ended run's next step answers the same state, where the spec
has no further step, is its choice (7.md). -/
def Obligations.CancellationWaitsForTheCycle : Prop :=
  ∀ (s : State) (later : List Bool), s.run = true → s.phase = .fetch →
    ∃ t, step { s with signals := false :: later } = .next t ∧
      step { s with signals := true :: later } = .next t.cancel ∧
      step t.cancel = .next t.cancel ∧ t.cancel.cancel = t.cancel

/-- Once the run-flag is false at the top of the loop the engine takes no further step (R35, R121, R133). The model says it
so, by its own choice (notes/assumptions/7.md): any number of steps answers the final state as it is. -/
def Obligations.EndedRunNeverResumes : Prop :=
  ∀ (s : State) (k : Nat), s.run = false → s.phase = .fetch → Host.Core.run Sys2Proof.core k s = .next s

/-- The device hook (R128, R272): a present device's service takes effect, on the registers, the bytes of memory and the
device's own state, and HANDLE_DEVICES leaves them as the hook does; it may change nothing else; where no device is present
it changes nothing. The coding of the device is the model's choice (notes/assumptions/4.md). -/
def Obligations.DeviceHookFootprint : Prop :=
  ∀ s : State,
    (∀ d, s.dev = some d →
      let e := Config.deviceService d s.regs s.byteAt
      (serviceDevices s).regs = e.regs ∧ (∀ a, (serviceDevices s).byteAt a = e.mem a) ∧
        (serviceDevices s).dev = some e.dev) ∧
    (s.dev = none → serviceDevices s = s) ∧
    ((serviceDevices s).clk = s.clk ∧ (serviceDevices s).run = s.run ∧ (serviceDevices s).phase = s.phase ∧
      (serviceDevices s).ir = s.ir ∧ (serviceDevices s).signals = s.signals) ∧
    (s.mem.wf = true → (serviceDevices s).mem.wf = true) ∧
    ((devicesPhase s).regs = (serviceDevices s).regs ∧ (devicesPhase s).mem = (serviceDevices s).mem ∧
      (devicesPhase s).dev = (serviceDevices s).dev)

/-- The engine never reads R6, and neither the engine nor a branch condition reads the sleep flag (R24, R284). Another value
of R6 passes through FETCH, DECODE and an absent device's HANDLE_DEVICES; EXECUTE adds to the handler only the clock's count
and the next phase; whether the loop goes on to FETCH, and which phases a step runs, depends on the run-flag and the PC
alone, whatever R6 holds; and another sleep flag alters no branch condition. That an ended run's step answers the same state
is the model's choice (notes/assumptions/7.md). -/
def Obligations.EngineNeverReadsThePsw : Prop :=
  (∀ (s : State) (v : Word),
    fetchPhase (s.setReg .r6 v) = (fetchPhase s).setReg .r6 v ∧
    decodePhase (s.setReg .r6 v) = (decodePhase s).setReg .r6 v ∧
    (s.dev = none → devicesPhase (s.setReg .r6 v) = (devicesPhase s).setReg .r6 v)) ∧
  (∀ (s t : State) (w : Word), s.ir = some w → exec (decode w) s = .next t →
    executePhase s = .next { t with clk := t.clk + 1, phase := .handleDevices } ∧
    fromExecute s = .next (devicesPhase { t with clk := t.clk + 1, phase := .handleDevices })) ∧
  (∀ (s : State) (v : Word), s.phase = .fetch →
    tick (s.setReg .r6 v) = .next ((if s.run = true then fetchPhase s else s).setReg .r6 v) ∧
    (s.run = false → step (s.setReg .r6 v) = .next (s.setReg .r6 v)) ∧
    (s.run = true → s.reg .r7 = 0xFFFF → step (s.setReg .r6 v) = .next (devicesPhase ((fetchPhase s).setReg .r6 v))) ∧
    (s.run = true → s.reg .r7 ≠ 0xFFFF →
      step (s.setReg .r6 v) = fromExecute ((decodePhase (fetchPhase s)).setReg .r6 v))) ∧
  (∀ (c : Cond) (psw : Word), condHolds Config.pswLayout c (psw ^^^ 0x0008) = condHolds Config.pswLayout c psw)

/-- Every store is seen by the very next fetch (R70, R306). With no device, whatever instruction `i` the step runs, the next
fetch reads the bytes of memory that `i` left, unless it left the PC at the halt address, where nothing is fetched (R59);
so a word that STR or ST stores where the PC then points is the very word fetched next. With a device, the next fetch reads
the bytes that the device's service left. -/
def Obligations.StoreIsSeenByTheNextFetch : Prop :=
  (∀ (s u : State) (i : Instr), s.run = true → s.phase = .fetch → s.dev = none → s.reg .r7 ≠ 0xFFFF →
    decode (s.byteAt (s.reg .r7 + 1) ++ s.byteAt (s.reg .r7)) = i →
    exec i { s with regs := s.regs.set .r7 (s.reg .r7 + 2), phase := .execute,
                    ir := some (s.byteAt (s.reg .r7 + 1) ++ s.byteAt (s.reg .r7)) } = .next u →
    ∃ t, step s = .next t ∧ (fetchPhase t).ir =
      if u.reg .r7 = 0xFFFF then none else some (u.byteAt (u.reg .r7 + 1) ++ u.byteAt (u.reg .r7))) ∧
  (∀ (s : State) (src : Reg), s.Inv → s.run = true → s.dev = none → s.reg .r7 ≠ 0xFFFF →
    ∀ row ∈ [(Instr.str 0 .word src .r7, s.reg .r7 + 2), (.st .post false false .word src .r7, s.reg .r7 + 2),
        (.st .pre false false .word src .r7, s.reg .r7 + 2), (.st .pre false true .word src .r7, s.reg .r7 + 4),
        (.st .pre true false .word src .r7, s.reg .r7)],
      decode (s.byteAt (s.reg .r7 + 1) ++ s.byteAt (s.reg .r7)) = row.1 → row.2 ≠ 0xFFFF →
      ∃ t, step s = .next t ∧ t.reg .r7 = row.2 ∧
        (fetchPhase t).ir = some ((s.regs.set .r7 (s.reg .r7 + 2)).get src)) ∧
  (∀ (s : State) (d : Nat), s.dev = some d →
    let e := Config.deviceService d s.regs s.byteAt
    (fetchPhase (devicesPhase s)).ir =
      if e.regs.get .r7 = 0xFFFF then none else some (e.mem (e.regs.get .r7 + 1) ++ e.mem (e.regs.get .r7)))

/-- The whole cycle is its phases in their order (R36, R120, R132): from the top of the loop, FETCH, DECODE, EXECUTE and
HANDLE_DEVICES where a word is fetched, and FETCH and HANDLE_DEVICES at the halt address, take the phase machine to the
state that one step gives, and it is at FETCH again. -/
def Obligations.CycleIsItsPhasesInOrder : Prop :=
  ∀ s : State, s.phase = .fetch → s.run = true →
    ∃ t, step s = .next t ∧ t.phase = .fetch ∧
      (s.reg .r7 = 0xFFFF → ∃ t₁, ticks 1 s = .next t₁ ∧ t₁.phase = .handleDevices ∧ ticks 2 s = .next t) ∧
      (s.reg .r7 ≠ 0xFFFF → ∃ t₁ t₂ t₃, ticks 1 s = .next t₁ ∧ t₁.phase = .decode ∧ ticks 2 s = .next t₂ ∧
        t₂.phase = .execute ∧ ticks 3 s = .next t₃ ∧ t₃.phase = .handleDevices ∧ ticks 4 s = .next t)

/-! ### The invariant, the start of a run, the host -/

/-- The invariant of the top of the loop: every step keeps it, whatever the arithmetic handlers, the device and the host's
signals do. That an ended run still has a step is the model's choice (notes/assumptions/7.md). -/
def Obligations.EveryStepKeepsTheInvariant : Prop :=
  ∀ s t : State, s.Inv → step s = .next t → t.Inv

/-- The rest of a cycle, begun in any phase with a canonical memory, ends at the top of the loop. That a step from the middle
of a cycle is the rest of it, and that EXECUTE without a word goes on, are the model's choice (notes/assumptions/6.md,
17.md). -/
def Obligations.EveryCycleEndsAtTheTopOfTheLoop : Prop :=
  ∀ s t : State, s.mem.wf = true → s.phase ≠ .fetch → step s = .next t → t.Inv

/-- The invariant holds in the reset state, whose run-flag is true, whose clock is 0, whose phase is FETCH and which holds
no fetched word (R40). Its registers and memory are the model's choice and are not stated here. -/
def Obligations.ResetIsAtTheTopOfTheLoop : Prop :=
  State.reset.Inv ∧ State.reset.run = true ∧ State.reset.clk = 0 ∧ State.reset.phase = .fetch ∧ State.reset.ir = none

/-- Entry to `RunMachine` (R40, R300): run-flag true, clock 0, phase FETCH, no word in flight; R0 to R6, R7, the device state
and the bytes of the image are the loader's; and the loader can supply any contents of memory. That an image is a list, of
which a later entry wins, is the model's choice (notes/assumptions/11.md). -/
def Obligations.LaunchSuppliesTheStartOfARun : Prop :=
  (∀ (l : Launch) (signals : List Bool),
    let s := State.launch l signals
    s.Inv ∧ s.run = true ∧ s.clk = 0 ∧ s.phase = .fetch ∧ s.ir = none ∧ s.reg .r7 = l.pc ∧
    (∀ r, r ≠ .r7 → s.reg r = l.regs.get r) ∧ s.dev = l.dev ∧
    (∀ cell, (l.image.reverse.find? fun c => c.1 == cell.1) = some cell → s.byteAt cell.1 = cell.2)) ∧
  (∀ f : Word → Byte, ∃ image, ∀ (regs : RegFile) (pc : Word) (dev : Option Nat) (signals : List Bool) (a : Word),
    (State.launch { regs := regs, pc := pc, image := image, dev := dev } signals).byteAt a = f a)

/-- The host reads the state only while the engine is paused (R67): the read is refused while a run is in progress, which
is how the model gives the host no read there (its own choice, notes/assumptions/14.md), and once the loop has exited it gives the registers, memory and clock that the last cycle left (R133, R286). -/
def Obligations.InspectionOnlyWhilePaused : Prop :=
  ∀ s : State, (s.run = true ∨ s.phase ≠ .fetch → s.inspect = .error .inspectedWhileRunning) ∧
    (s.run = false → s.phase = .fetch → s.inspect = .ok { regs := s.regs, mem := s.mem, clk := s.clk })
end

