-- ==== Sys2Proof/Laws/Decode.lean ====
section
/-! SUPPORT. Fields of an appended word, and what the decoder reads from a word of each format. -/

namespace Sys2Proof

/-! ### Operand codes -/

@[simp] theorem regOfBits_regBits (r : Reg) : regOfBits (regBits r) = r := by cases r <;> rfl

@[simp] theorem regBits_regOfBits (b : BitVec 3) : regBits (regOfBits b) = b := by revert b; decide

@[simp] theorem widthOfBit_widthBit (w : Width) : widthOfBit (widthBit w) = w := by cases w <;> rfl

@[simp] theorem widthBit_widthOfBit (b : BitVec 1) : widthBit (widthOfBit b) = b := by revert b; decide

@[simp] theorem srcKindOfBit_srcKindBit (k : SrcKind) : srcKindOfBit (srcKindBit k) = k := by cases k <;> rfl

@[simp] theorem srcKindBit_srcKindOfBit (b : BitVec 1) : srcKindBit (srcKindOfBit b) = b := by revert b; decide

@[simp] theorem indexModeOfBit_indexModeBit (p : IndexMode) : indexModeOfBit (indexModeBit p) = p := by cases p <;> rfl

@[simp] theorem indexModeBit_indexModeOfBit (b : BitVec 1) : indexModeBit (indexModeOfBit b) = b := by revert b; decide

@[simp] theorem bitSet_flagBit (b : Bool) : bitSet (flagBit b) = b := by cases b <;> rfl

@[simp] theorem flagBit_bitSet (b : BitVec 1) : flagBit (bitSet b) = b := by revert b; decide

@[simp] theorem condOfBits_condBits (c : Cond) : condOfBits (condBits c) = c := by cases c <;> rfl

@[simp] theorem condBits_condOfBits (b : BitVec 3) : condBits (condOfBits b) = b := by revert b; decide

/-! ### Offset fields (R92, R93, R94) -/

/-- An offset that fits its field is the signed number of that field. -/
theorem toInt_ofInt_of_fits {n : Nat} {off : Int} (h : offsetFits n off = true) :
    (BitVec.ofInt (n + 1) off).toInt = off := by
  simp only [offsetFits, Bool.and_eq_true, decide_eq_true_eq] at h
  rw [BitVec.toInt_ofInt]
  apply Int.bmod_eq_of_le
  · rw [Nat.pow_succ]; push_cast; omega
  · rw [Nat.pow_succ]; push_cast; omega

/-- The signed number of a field fits the field. -/
theorem offsetFits_toInt {n : Nat} (v : BitVec (n + 1)) : offsetFits n v.toInt = true := by
  have h1 := BitVec.le_toInt v
  have h2 := BitVec.toInt_lt (x := v)
  simp only [Nat.add_sub_cancel] at h1 h2
  simp only [offsetFits, Bool.and_eq_true]
  exact ⟨decide_eq_true h1, decide_eq_true h2⟩

/-- The assembler gives a field exactly where the offset fits, and then the field's signed number is the offset. -/
theorem offsetField_eq_some {n : Nat} {off : Int} {v : BitVec (n + 1)} : offsetField n off = some v ↔ v.toInt = off := by
  unfold offsetField
  constructor
  · intro h
    split at h
    · obtain rfl := Option.some.inj h; exact toInt_ofInt_of_fits ‹_›
    · cases h
  · rintro rfl
    rw [if_pos (offsetFits_toInt v), BitVec.ofInt_toInt]

/-- There is a field for an offset exactly where the offset lies in the field's range. -/
theorem offsetField_isSome {n : Nat} {off : Int} :
    (offsetField n off).isSome = true ↔ -(2 ^ n : Int) ≤ off ∧ off < 2 ^ n := by
  simp [offsetField, offsetFits, Option.isSome_ite]

/-! ### Fields of an appended word -/

/-- A field inside the low part. -/
theorem field_append_low {n m : Nat} (x : BitVec n) (y : BitVec m) (lo k : Nat) (h : lo + k ≤ m) :
    (x ++ y).extractLsb' lo k = y.extractLsb' lo k := by
  ext i hi
  simp only [BitVec.getElem_extractLsb', BitVec.getLsbD_append]
  rw [if_pos (by omega)]

/-- A field inside the high part. -/
theorem field_append_high {n m : Nat} (x : BitVec n) (y : BitVec m) (lo k : Nat) (h : m ≤ lo) :
    (x ++ y).extractLsb' lo k = x.extractLsb' (lo - m) k := by
  ext i hi
  simp only [BitVec.getElem_extractLsb', BitVec.getLsbD_append]
  rw [if_neg (by omega)]
  congr 1; omega

/-- The whole of a part. -/
theorem field_whole {n : Nat} (x : BitVec n) : x.extractLsb' 0 n = x := by
  ext i hi
  simp only [BitVec.getElem_extractLsb', Nat.zero_add, BitVec.getLsbD_eq_getElem hi]

/-! ### What the decoder reads from a word of each format (R84 to R91) -/

/-- The class of each format (R82). -/
theorem classify_moveHigh (x : BitVec 1) (imm8 : BitVec 8) (dst : BitVec 3) :
    classify (0b0000#4 ++ x ++ imm8 ++ dst) = .moveHigh := by
  simp (disch := omega) only [classify, field, field_append_high, Nat.reduceSub]
  decide

theorem classify_branchAndLink (off12 : BitVec 12) : classify (0b0001#4 ++ off12) = .branchAndLink := by
  simp (disch := omega) only [classify, field, field_append_high, Nat.reduceSub]
  decide

theorem classify_branch (cond : BitVec 3) (off10 : BitVec 10) : classify (0b001#3 ++ cond ++ off10) = .branch := by
  simp (disch := omega) only [classify, field, field_append_high, Nat.reduceSub]
  revert cond; decide

theorem classify_arithmetic (op : BitVec 5) (rc wb : BitVec 1) (src dst : BitVec 3) :
    classify (0b010#3 ++ op ++ rc ++ wb ++ src ++ dst) = .arithmetic := by
  simp (disch := omega) only [classify, field, field_append_high, Nat.reduceSub]
  revert op; decide

theorem classify_load (prpo dec inc x wb : BitVec 1) (src dst : BitVec 3) :
    classify (0b011#3 ++ 0b00#2 ++ prpo ++ dec ++ inc ++ x ++ wb ++ src ++ dst) = .ldStMovlMovlz := by
  simp (disch := omega) only [classify, field, field_append_high, Nat.reduceSub]
  decide

theorem classify_store (prpo dec inc x wb : BitVec 1) (src dst : BitVec 3) :
    classify (0b011#3 ++ 0b01#2 ++ prpo ++ dec ++ inc ++ x ++ wb ++ src ++ dst) = .ldStMovlMovlz := by
  simp (disch := omega) only [classify, field, field_append_high, Nat.reduceSub]
  decide

theorem classify_moveLow (imm8 : BitVec 8) (dst : BitVec 3) :
    classify (0b011#3 ++ 0b10#2 ++ imm8 ++ dst) = .ldStMovlMovlz := by
  simp (disch := omega) only [classify, field, field_append_high, Nat.reduceSub]
  decide

theorem classify_moveLowZero (imm8 : BitVec 8) (dst : BitVec 3) :
    classify (0b011#3 ++ 0b11#2 ++ imm8 ++ dst) = .ldStMovlMovlz := by
  simp (disch := omega) only [classify, field, field_append_high, Nat.reduceSub]
  decide

theorem classify_loadRelative (off7 : BitVec 7) (wb : BitVec 1) (src dst : BitVec 3) :
    classify (0b10#2 ++ off7 ++ wb ++ src ++ dst) = .loadRelative := by
  simp (disch := omega) only [classify, field, field_append_high, Nat.reduceSub]
  revert off7; decide

theorem classify_storeRelative (off7 : BitVec 7) (wb : BitVec 1) (src dst : BitVec 3) :
    classify (0b11#2 ++ off7 ++ wb ++ src ++ dst) = .storeRelative := by
  simp (disch := omega) only [classify, field, field_append_high, Nat.reduceSub]
  revert off7; decide

theorem decode_moveHigh (x : BitVec 1) (imm8 : BitVec 8) (dst : BitVec 3) :
    decode (0b0000#4 ++ x ++ imm8 ++ dst) = .movh imm8 (regOfBits dst) := by
  simp only [decode, classify_moveHigh]
  simp (disch := omega) only [field, field_append_low, field_append_high, field_whole, Nat.reduceSub]

theorem decode_branchAndLink (off12 : BitVec 12) : decode (0b0001#4 ++ off12) = .bl off12 := by
  simp only [decode, classify_branchAndLink]
  simp (disch := omega) only [field, field_append_low, field_whole]

theorem decode_branch (cond : BitVec 3) (off10 : BitVec 10) :
    decode (0b001#3 ++ cond ++ off10) = branchInstr (condOfBits cond) off10 := by
  simp only [decode, classify_branch]
  simp (disch := omega) only [field, field_append_low, field_append_high, field_whole, Nat.reduceSub]

theorem decode_arithmetic (op : BitVec 5) (rc wb : BitVec 1) (src dst : BitVec 3) :
    decode (0b010#3 ++ op ++ rc ++ wb ++ src ++ dst) =
      slotInstr op.toNat (srcKindOfBit rc) (widthOfBit wb) (regOfBits src) (regOfBits dst) := by
  simp only [decode, classify_arithmetic]
  simp (disch := omega) only [field, field_append_low, field_append_high, field_whole, Nat.reduceSub]

theorem decode_load (prpo dec inc x wb : BitVec 1) (src dst : BitVec 3) :
    decode (0b011#3 ++ 0b00#2 ++ prpo ++ dec ++ inc ++ x ++ wb ++ src ++ dst) =
      .ld (indexModeOfBit prpo) (bitSet dec) (bitSet inc) (widthOfBit wb) (regOfBits src) (regOfBits dst) := by
  simp only [decode, classify_load, decodeSubType]
  simp (disch := omega) only [field, field_append_low, field_append_high, field_whole, Nat.reduceSub]
  rfl

theorem decode_store (prpo dec inc x wb : BitVec 1) (src dst : BitVec 3) :
    decode (0b011#3 ++ 0b01#2 ++ prpo ++ dec ++ inc ++ x ++ wb ++ src ++ dst) =
      .st (indexModeOfBit prpo) (bitSet dec) (bitSet inc) (widthOfBit wb) (regOfBits src) (regOfBits dst) := by
  simp only [decode, classify_store, decodeSubType]
  simp (disch := omega) only [field, field_append_low, field_append_high, field_whole, Nat.reduceSub]
  rfl

theorem decode_moveLow (imm8 : BitVec 8) (dst : BitVec 3) :
    decode (0b011#3 ++ 0b10#2 ++ imm8 ++ dst) = .movl imm8 (regOfBits dst) := by
  simp only [decode, classify_moveLow, decodeSubType]
  simp (disch := omega) only [field, field_append_low, field_append_high, field_whole, Nat.reduceSub]
  rfl

theorem decode_moveLowZero (imm8 : BitVec 8) (dst : BitVec 3) :
    decode (0b011#3 ++ 0b11#2 ++ imm8 ++ dst) = .movlz imm8 (regOfBits dst) := by
  simp only [decode, classify_moveLowZero, decodeSubType]
  simp (disch := omega) only [field, field_append_low, field_append_high, field_whole, Nat.reduceSub]
  rfl

theorem decode_loadRelative (off7 : BitVec 7) (wb : BitVec 1) (src dst : BitVec 3) :
    decode (0b10#2 ++ off7 ++ wb ++ src ++ dst) =
      .ldr off7 (widthOfBit wb) (regOfBits src) (regOfBits dst) := by
  simp only [decode, classify_loadRelative]
  simp (disch := omega) only [field, field_append_low, field_append_high, field_whole, Nat.reduceSub]

theorem decode_storeRelative (off7 : BitVec 7) (wb : BitVec 1) (src dst : BitVec 3) :
    decode (0b11#2 ++ off7 ++ wb ++ src ++ dst) =
      .str off7 (widthOfBit wb) (regOfBits src) (regOfBits dst) := by
  simp only [decode, classify_storeRelative]
  simp (disch := omega) only [field, field_append_low, field_append_high, field_whole, Nat.reduceSub]

/-! ### Every word is of one format -/

/-- A bit vector is its high part before its low part. -/
theorem append_fields {n m : Nat} (x : BitVec (n + m)) : x.extractLsb' m n ++ x.extractLsb' 0 m = x := by
  ext i hi
  simp only [BitVec.getElem_append, BitVec.getElem_extractLsb', Nat.zero_add]
  split
  · exact BitVec.getLsbD_eq_getElem hi
  · simp only [show m + (i - m) = i by omega]; exact BitVec.getLsbD_eq_getElem hi

theorem exists_append {n m : Nat} (x : BitVec (n + m)) : ∃ (a : BitVec n) (b : BitVec m), x = a ++ b :=
  ⟨_, _, (append_fields x).symm⟩

/-- A proof about every word is one about every format (R83): the ranges of R82 leave no word out. -/
theorem word_induction {P : Word → Prop}
    (moveHigh : ∀ (x : BitVec 1) (imm8 : BitVec 8) (dst : BitVec 3), P (0b0000#4 ++ x ++ imm8 ++ dst))
    (branchAndLink : ∀ off12 : BitVec 12, P (0b0001#4 ++ off12))
    (branch : ∀ (cond : BitVec 3) (off10 : BitVec 10), P (0b001#3 ++ cond ++ off10))
    (arithmetic : ∀ (op : BitVec 5) (rc wb : BitVec 1) (src dst : BitVec 3),
      P (0b010#3 ++ op ++ rc ++ wb ++ src ++ dst))
    (load : ∀ (prpo dec inc x wb : BitVec 1) (src dst : BitVec 3),
      P (0b011#3 ++ 0b00#2 ++ prpo ++ dec ++ inc ++ x ++ wb ++ src ++ dst))
    (store : ∀ (prpo dec inc x wb : BitVec 1) (src dst : BitVec 3),
      P (0b011#3 ++ 0b01#2 ++ prpo ++ dec ++ inc ++ x ++ wb ++ src ++ dst))
    (moveLow : ∀ (imm8 : BitVec 8) (dst : BitVec 3), P (0b011#3 ++ 0b10#2 ++ imm8 ++ dst))
    (moveLowZero : ∀ (imm8 : BitVec 8) (dst : BitVec 3), P (0b011#3 ++ 0b11#2 ++ imm8 ++ dst))
    (loadRelative : ∀ (off7 : BitVec 7) (wb : BitVec 1) (src dst : BitVec 3),
      P (0b10#2 ++ off7 ++ wb ++ src ++ dst))
    (storeRelative : ∀ (off7 : BitVec 7) (wb : BitVec 1) (src dst : BitVec 3),
      P (0b11#2 ++ off7 ++ wb ++ src ++ dst)) (w : Word) : P w := by
  have nibble : ∀ b : BitVec 4, b = 0 ∨ b = 1 ∨ (b = 2 ∨ b = 3) ∨ (b = 4 ∨ b = 5) ∨ b = 6 ∨ b = 7 ∨
      (b.extractLsb' 2 2 = 0b10 ∨ b.extractLsb' 2 2 = 0b11) := by decide
  rcases nibble (w.extractLsb' 12 4) with h | h | h | h | h | h | h
  · obtain ⟨h13, dst, rfl⟩ := exists_append (n := 13) (m := 3) w
    obtain ⟨h5, imm8, rfl⟩ := exists_append (n := 5) (m := 8) h13
    obtain ⟨h4, x, rfl⟩ := exists_append (n := 4) (m := 1) h5
    simp (disch := omega) only [field_append_high, field_whole, Nat.reduceSub] at h
    subst h
    exact moveHigh x imm8 dst
  · obtain ⟨h4, off12, rfl⟩ := exists_append (n := 4) (m := 12) w
    simp (disch := omega) only [field_append_high, field_whole, Nat.reduceSub] at h
    subst h
    exact branchAndLink off12
  · obtain ⟨h6, off10, rfl⟩ := exists_append (n := 6) (m := 10) w
    obtain ⟨h3, cond, rfl⟩ := exists_append (n := 3) (m := 3) h6
    simp (disch := omega) only [field_append_high, Nat.reduceSub] at h
    obtain rfl : h3 = 0b001#3 := by revert h3 cond; decide
    exact branch cond off10
  · obtain ⟨h13, dst, rfl⟩ := exists_append (n := 13) (m := 3) w
    obtain ⟨h10, src, rfl⟩ := exists_append (n := 10) (m := 3) h13
    obtain ⟨h9, wb, rfl⟩ := exists_append (n := 9) (m := 1) h10
    obtain ⟨h8, rc, rfl⟩ := exists_append (n := 8) (m := 1) h9
    obtain ⟨h3, op, rfl⟩ := exists_append (n := 3) (m := 5) h8
    simp (disch := omega) only [field_append_high, Nat.reduceSub] at h
    obtain rfl : h3 = 0b010#3 := by revert h3 op; decide
    exact arithmetic op rc wb src dst
  · obtain ⟨h13, dst, rfl⟩ := exists_append (n := 13) (m := 3) w
    obtain ⟨h10, src, rfl⟩ := exists_append (n := 10) (m := 3) h13
    obtain ⟨h9, wb, rfl⟩ := exists_append (n := 9) (m := 1) h10
    obtain ⟨h8, x, rfl⟩ := exists_append (n := 8) (m := 1) h9
    obtain ⟨h7, inc, rfl⟩ := exists_append (n := 7) (m := 1) h8
    obtain ⟨h6, dec, rfl⟩ := exists_append (n := 6) (m := 1) h7
    obtain ⟨h5, prpo, rfl⟩ := exists_append (n := 5) (m := 1) h6
    obtain ⟨h3, sub, rfl⟩ := exists_append (n := 3) (m := 2) h5
    simp (disch := omega) only [field_append_high, Nat.reduceSub] at h
    have hs : h3 = 0b011#3 ∧ (sub = 0b00#2 ∨ sub = 0b01#2) := by revert h3 sub; decide
    obtain ⟨rfl, rfl | rfl⟩ := hs
    · exact load prpo dec inc x wb src dst
    · exact store prpo dec inc x wb src dst
  · obtain ⟨h13, dst, rfl⟩ := exists_append (n := 13) (m := 3) w
    obtain ⟨h5, imm8, rfl⟩ := exists_append (n := 5) (m := 8) h13
    obtain ⟨h3, sub, rfl⟩ := exists_append (n := 3) (m := 2) h5
    simp (disch := omega) only [field_append_high, Nat.reduceSub] at h
    have hs : h3 = 0b011#3 ∧ (sub = 0b10#2 ∨ sub = 0b11#2) := by revert h3 sub; decide
    obtain ⟨rfl, rfl | rfl⟩ := hs
    · exact moveLow imm8 dst
    · exact moveLowZero imm8 dst
  · have hdir : (w.extractLsb' 12 4).extractLsb' 2 2 = w.extractLsb' 14 2 := by
      ext i hi
      simp only [BitVec.getElem_extractLsb', BitVec.getLsbD_extractLsb', show 2 + i < 4 by omega, decide_true,
        Bool.true_and]
      congr 1; omega
    rw [hdir] at h
    clear hdir
    obtain ⟨h13, dst, rfl⟩ := exists_append (n := 13) (m := 3) w
    obtain ⟨h10, src, rfl⟩ := exists_append (n := 10) (m := 3) h13
    obtain ⟨h9, wb, rfl⟩ := exists_append (n := 9) (m := 1) h10
    obtain ⟨dir, off7, rfl⟩ := exists_append (n := 2) (m := 7) h9
    simp (disch := omega) only [field_append_high, field_whole, Nat.reduceSub] at h
    rcases h with h | h
    · obtain rfl : dir = 0b10#2 := h
      exact loadRelative off7 wb src dst
    · obtain rfl : dir = 0b11#2 := h
      exact storeRelative off7 wb src dst

/-- The number of an appended word. -/
theorem toNat_append_eq {n m : Nat} (x : BitVec n) (y : BitVec m) : (x ++ y).toNat = x.toNat * 2 ^ m + y.toNat := by
  rw [BitVec.toNat_append, Nat.shiftLeft_eq, Nat.mul_comm, ← Nat.two_pow_add_eq_or_of_lt y.isLt x.toNat]

/-- A mask applied to an appended word, part by part. -/
theorem append_and_append {n m : Nat} (x x' : BitVec n) (y y' : BitVec m) :
    (x ++ y) &&& (x' ++ y') = (x &&& x') ++ (y &&& y') := by
  ext i hi
  simp only [BitVec.getElem_and, BitVec.getElem_append]
  split <;> simp

/-! ### The encoder on what the decoder reads -/

@[simp] theorem encode_branchInstr (c : Cond) (off10 : BitVec 10) : encode (branchInstr c off10) = branchWord c off10 := by
  cases c <;> rfl

@[simp] theorem encode_slotInstr (op : BitVec 5) (rc : SrcKind) (wb : Width) (src dst : Reg) :
    encode (slotInstr op.toNat rc wb src dst) = arithWord op rc wb src dst := by
  obtain ⟨⟨n, hn⟩⟩ := op
  simp only [BitVec.toNat_ofFin]
  interval_cases n <;> rfl

end Sys2Proof
end

