-- ==== Sys2Proof/Laws/Memory.lean ====
section
/-! SUPPORT. The memory array: a read after a write, and that every operation keeps the canonical form. -/

namespace Sys2Proof.Machine

open Memory

/-! ### Reading -/

/-- Below every listed address nothing is listed. -/
theorem Memory.read_of_lt {m : Memory} {low a : Nat} (h : wfFrom low m = true) (ha : a < low) :
    read m a = Config.unwrittenByte := by
  induction m generalizing low with
  | nil => rfl
  | cons cell m ih =>
    obtain ⟨k, c⟩ := cell
    simp only [wfFrom, Bool.and_eq_true, decide_eq_true_eq] at h
    simp only [read, show k ≠ a by omega, if_false]
    exact ih h.2 (by omega)

theorem Memory.wfFrom_mono {m : Memory} {low low' : Nat} (h : wfFrom low m = true) (hl : low' ≤ low) :
    wfFrom low' m = true := by
  cases m with
  | nil => rfl
  | cons cell m =>
    simp only [wfFrom, Bool.and_eq_true, decide_eq_true_eq] at h ⊢
    exact ⟨⟨⟨by omega, h.1.1.2⟩, h.1.2⟩, h.2⟩

theorem Memory.read_cons (m : Memory) (a x : Nat) (b : Byte) (h : read m a = Config.unwrittenByte) :
    read (cons a b m) x = if x = a then b else read m x := by
  unfold cons
  split <;> rename_i hb
  · split
    · next hx => rw [hx, h, hb]
    · rfl
  · simp only [read, eq_comm]

/-- A read after a write: the byte written, or what was there. -/
theorem Memory.read_write {m : Memory} {low : Nat} (h : wfFrom low m = true) (a x : Nat) (b : Byte) :
    read (write m a b) x = if x = a then b else read m x := by
  induction m generalizing low with
  | nil => exact read_cons [] a x b rfl
  | cons cell m ih =>
    obtain ⟨k, c⟩ := cell
    have hm : wfFrom (k + 1) m = true := by
      simp only [wfFrom, Bool.and_eq_true] at h; exact h.2
    simp only [write]
    split
    · next hlt =>
      refine read_cons _ a x b ?_
      have : wfFrom k ((k, c) :: m) = true := by
        simp only [wfFrom, Bool.and_eq_true, decide_eq_true_eq] at h ⊢
        exact ⟨⟨⟨Nat.le_refl k, h.1.1.2⟩, h.1.2⟩, h.2⟩
      exact read_of_lt this hlt
    · split
      · next hk =>
        subst hk
        rw [read_cons m a x b (read_of_lt hm (Nat.lt_succ_self a))]
        simp only [read]
        split
        · rfl
        · next hx => rw [if_neg (fun e => hx e.symm)]
      · next hk =>
        simp only [read]
        split
        · next hx => rw [if_neg (by omega)]
        · exact ih hm

/-! ### The canonical form -/

theorem Memory.wfFrom_cons {m : Memory} {low a : Nat} (b : Byte) (hl : low ≤ a) (ha : a < Config.memoryBytes)
    (h : wfFrom (a + 1) m = true) : wfFrom low (cons a b m) = true := by
  unfold cons
  split
  · exact wfFrom_mono h (by omega)
  · next hb =>
    simp only [wfFrom, Bool.and_eq_true, decide_eq_true_eq]
    exact ⟨⟨⟨hl, ha⟩, hb⟩, h⟩

theorem Memory.wfFrom_write {m : Memory} {low a : Nat} (b : Byte) (h : wfFrom low m = true) (hl : low ≤ a)
    (ha : a < Config.memoryBytes) : wfFrom low (write m a b) = true := by
  induction m generalizing low with
  | nil => exact wfFrom_cons b hl ha rfl
  | cons cell m ih =>
    obtain ⟨k, c⟩ := cell
    have h' := h
    simp only [wfFrom, Bool.and_eq_true, decide_eq_true_eq] at h
    simp only [write]
    split
    · next hlt =>
      refine wfFrom_cons b hl ha ?_
      simp only [wfFrom, Bool.and_eq_true, decide_eq_true_eq]
      exact ⟨⟨⟨by omega, h.1.1.2⟩, h.1.2⟩, h.2⟩
    · split
      · next hk => subst hk; exact wfFrom_cons b hl ha h.2
      · next hk =>
        simp only [wfFrom, Bool.and_eq_true, decide_eq_true_eq]
        exact ⟨⟨⟨h.1.1.1, h.1.1.2⟩, h.1.2⟩, ih h.2 (by omega)⟩

theorem Memory.wfFrom_tabulate (f : Nat → Byte) (count a : Nat) (h : a + count ≤ Config.memoryBytes) :
    wfFrom a (tabulate f count a) = true := by
  induction count generalizing a with
  | zero => rfl
  | succ count ih => exact wfFrom_cons _ (Nat.le_refl a) (by omega) (ih (a + 1) (by omega))

theorem Memory.read_tabulate (f : Nat → Byte) (count a x : Nat) (h : a + count ≤ Config.memoryBytes) :
    read (tabulate f count a) x = if a ≤ x ∧ x < a + count then f x else Config.unwrittenByte := by
  induction count generalizing a with
  | zero => simp only [tabulate, read]; rw [if_neg (by omega)]
  | succ count ih =>
    have hw := wfFrom_tabulate f count (a + 1) (by omega)
    simp only [tabulate]
    rw [read_cons _ _ _ _ (read_of_lt hw (Nat.lt_succ_self a)), ih (a + 1) (by omega)]
    split
    · next hx => subst hx; rw [if_pos (by omega)]
    · next hx =>
      by_cases hc : a + 1 ≤ x ∧ x < a + 1 + count
      · rw [if_pos hc, if_pos (by omega)]
      · rw [if_neg hc, if_neg (by omega)]

/-- Two canonical memories with the same bytes are the same list. -/
theorem Memory.eq_of_read_eq {m n : Memory} {low : Nat} (hm : wfFrom low m = true) (hn : wfFrom low n = true)
    (h : ∀ a, a < Config.memoryBytes → read m a = read n a) : m = n := by
  induction m generalizing n low with
  | nil =>
    cases n with
    | nil => rfl
    | cons cell n =>
      obtain ⟨k, c⟩ := cell
      simp only [wfFrom, Bool.and_eq_true, decide_eq_true_eq] at hn
      have := h k hn.1.1.2
      simp only [read, if_true] at this
      exact absurd this.symm hn.1.2
  | cons cell m ih =>
    obtain ⟨k, c⟩ := cell
    have hm' := hm
    simp only [wfFrom, Bool.and_eq_true, decide_eq_true_eq] at hm
    cases n with
    | nil =>
      have := h k hm.1.1.2
      simp only [read, if_true] at this
      exact absurd this hm.1.2
    | cons cell n =>
      obtain ⟨j, d⟩ := cell
      simp only [wfFrom, Bool.and_eq_true, decide_eq_true_eq] at hn
      have hkj : k = j := by
        rcases Nat.lt_trichotomy k j with hlt | heq | hgt
        · have := h k hm.1.1.2
          simp only [read, if_true, show j ≠ k by omega, if_false] at this
          rw [read_of_lt hn.2 (by omega)] at this
          exact absurd this hm.1.2
        · exact heq
        · have := h j hn.1.1.2
          simp only [read, if_true, show k ≠ j by omega, if_false] at this
          rw [read_of_lt hm.2 (by omega)] at this
          exact absurd this.symm hn.1.2
      subst hkj
      have hcd : c = d := by
        have := h k hm.1.1.2
        simpa only [read, if_true] using this
      subst hcd
      congr 1
      refine ih hm.2 hn.2 fun a ha => ?_
      rcases Nat.lt_or_ge k a with hlt | hge
      · have := h a ha
        simpa only [read, show k ≠ a by omega, if_false] using this
      · rw [read_of_lt hm.2 (by omega), read_of_lt hn.2 (by omega)]

/-! ### Sixteen-bit addresses -/

theorem toNat_lt_memoryBytes (a : Word) : a.toNat < Config.memoryBytes := a.isLt

/-- `M[a] <- b`, then `M[x]`. -/
theorem Memory.readAt_writeAt {m : Memory} (h : m.wf = true) (a x : Word) (b : Byte) :
    readAt (writeAt m a b) x = if x = a then b else readAt m x := by
  unfold readAt writeAt
  rw [read_write h]
  simp only [BitVec.toNat_inj]

theorem Memory.wf_writeAt {m : Memory} (h : m.wf = true) (a : Word) (b : Byte) : (writeAt m a b).wf = true :=
  wfFrom_write b h (Nat.zero_le _) (toNat_lt_memoryBytes a)

theorem Memory.wf_ofContents (f : Word → Byte) : (ofContents f).wf = true :=
  wfFrom_tabulate _ _ 0 (Nat.le_of_eq (Nat.zero_add _))

@[simp] theorem Memory.readAt_ofContents (f : Word → Byte) (a : Word) : readAt (ofContents f) a = f a := by
  have hlt := toNat_lt_memoryBytes a
  unfold readAt ofContents
  rw [read_tabulate _ _ _ _ (Nat.le_of_eq (Nat.zero_add _)), if_pos (by omega)]
  simp only [BitVec.ofNat_toNat, BitVec.setWidth_eq]

theorem Memory.ext_readAt {m n : Memory} (hm : m.wf = true) (hn : n.wf = true) (h : ∀ a, readAt m a = readAt n a) :
    m = n := by
  refine eq_of_read_eq hm hn fun a ha => ?_
  have := h (BitVec.ofNat 16 a)
  simpa only [readAt, BitVec.toNat_ofNat, Nat.mod_eq_of_lt (show a < 2 ^ 16 from ha)] using this

/-- The contents of a canonical memory give it back. -/
theorem Memory.ofContents_readAt {m : Memory} (h : m.wf = true) : ofContents (readAt m) = m :=
  ext_readAt (wf_ofContents _) h fun a => readAt_ofContents (readAt m) a

theorem wf_imageMemory (image : List (Word × Byte)) : (imageMemory image).wf = true := by
  unfold imageMemory
  suffices h : ∀ m : Memory, m.wf = true →
      (image.foldl (fun m cell => Memory.writeAt m cell.1 cell.2) m).wf = true from h [] rfl
  induction image with
  | nil => intro m hm; exact hm
  | cons cell image ih => intro m hm; exact ih _ (Memory.wf_writeAt hm _ _)

/-! ### The bus -/

/-- The two bytes of a word access are at different addresses. -/
theorem succ_ne_self (a : Word) : a + 1 ≠ a := by
  intro h
  have := congrArg BitVec.toNat h
  rw [BitVec.toNat_add, show (1 : Word).toNat = 1 from rfl] at this
  omega

theorem self_ne_succ (a : Word) : a ≠ a + 1 := fun h => succ_ne_self a h.symm

theorem wf_busWrite {m : Memory} (h : m.wf = true) (a : Word) (w : Width) (v : Word) :
    (busWrite m a w v).wf = true := by
  cases w
  · exact Memory.wf_writeAt (Memory.wf_writeAt h _ _) _ _
  · exact Memory.wf_writeAt h _ _

/-- The bytes after a byte write. -/
theorem readAt_busWrite_byte {m : Memory} (h : m.wf = true) (a x : Word) (v : Word) :
    Memory.readAt (busWrite m a .byte v) x = if x = a then lowByte v else Memory.readAt m x :=
  Memory.readAt_writeAt h a x _

/-- The bytes after a word write. -/
theorem readAt_busWrite_word {m : Memory} (h : m.wf = true) (a x : Word) (v : Word) :
    Memory.readAt (busWrite m a .word v) x =
      if x = a + 1 then highByte v else if x = a then lowByte v else Memory.readAt m x := by
  rw [show busWrite m a .word v = Memory.writeAt (Memory.writeAt m a (lowByte v)) (a + 1) (highByte v) from rfl,
    Memory.readAt_writeAt (Memory.wf_writeAt h _ _), Memory.readAt_writeAt h]

@[simp] theorem joinBytes_high_low (v : Word) : joinBytes (highByte v) (lowByte v) = v := by
  unfold joinBytes highByte lowByte
  ext i hi
  simp only [BitVec.getElem_append, BitVec.getElem_extractLsb']
  by_cases h : i < 8
  · simp only [h, dite_true, Nat.zero_add, BitVec.getLsbD_eq_getElem hi]
  · simp only [h, dite_false, show 8 + (i - 8) = i by omega, BitVec.getLsbD_eq_getElem hi]

@[simp] theorem lowByte_joinBytes (high low : Byte) : lowByte (joinBytes high low) = low := by
  unfold lowByte joinBytes
  ext i hi
  simp only [BitVec.getElem_extractLsb', BitVec.getLsbD_append, Nat.zero_add, hi, if_true,
    BitVec.getLsbD_eq_getElem hi]

@[simp] theorem highByte_joinBytes (high low : Byte) : highByte (joinBytes high low) = high := by
  unfold highByte joinBytes
  ext i hi
  simp only [BitVec.getElem_extractLsb', BitVec.getLsbD_append, show ¬8 + i < 8 by omega, if_false,
    show 8 + i - 8 = i by omega, BitVec.getLsbD_eq_getElem hi]

theorem toNat_joinBytes (high low : Byte) : (joinBytes high low).toNat = 256 * high.toNat + low.toNat := by
  unfold joinBytes
  rw [BitVec.toNat_append, Nat.shiftLeft_eq, Nat.mul_comm, ← Nat.two_pow_add_eq_or_of_lt low.isLt]

@[simp] theorem toNat_zeroExtend (b : Byte) : (zeroExtend b).toNat = b.toNat := by
  simp only [zeroExtend, toNat_joinBytes, show (0 : Byte).toNat = 0 from rfl, Nat.mul_zero, Nat.zero_add]

/-- Reset lists nothing, so its memory is canonical. -/
theorem wf_reset : State.reset.mem.wf = true := rfl

/-- A word read after a word write at the same address gives the word. -/
theorem busRead_busWrite_word {m : Memory} (h : m.wf = true) (a v : Word) :
    busRead (busWrite m a .word v) a .word = v := by
  simp only [busRead]
  rw [readAt_busWrite_word h, readAt_busWrite_word h, if_pos rfl, if_neg (self_ne_succ a), if_pos rfl,
    joinBytes_high_low]

end Sys2Proof.Machine
end

