-- ==== Sys2Proof/Laws/State.lean ====
section
/-! SUPPORT. What each update of the state leaves in each field. -/

namespace Sys2Proof.Machine

variable (s : State)

@[simp] theorem State.setReg_regs (r : Reg) (v : Word) : (s.setReg r v).regs = s.regs.set r v := rfl
@[simp] theorem State.setReg_mem (r : Reg) (v : Word) : (s.setReg r v).mem = s.mem := rfl
@[simp] theorem State.setReg_clk (r : Reg) (v : Word) : (s.setReg r v).clk = s.clk := rfl
@[simp] theorem State.setReg_run (r : Reg) (v : Word) : (s.setReg r v).run = s.run := rfl
@[simp] theorem State.setReg_phase (r : Reg) (v : Word) : (s.setReg r v).phase = s.phase := rfl
@[simp] theorem State.setReg_ir (r : Reg) (v : Word) : (s.setReg r v).ir = s.ir := rfl
@[simp] theorem State.setReg_dev (r : Reg) (v : Word) : (s.setReg r v).dev = s.dev := rfl
@[simp] theorem State.setReg_signals (r : Reg) (v : Word) : (s.setReg r v).signals = s.signals := rfl

@[simp] theorem State.store_regs (a : Word) (w : Width) (v : Word) : (s.store a w v).regs = s.regs := rfl
@[simp] theorem State.store_mem (a : Word) (w : Width) (v : Word) : (s.store a w v).mem = busWrite s.mem a w v := rfl
@[simp] theorem State.store_clk (a : Word) (w : Width) (v : Word) : (s.store a w v).clk = s.clk := rfl
@[simp] theorem State.store_run (a : Word) (w : Width) (v : Word) : (s.store a w v).run = s.run := rfl
@[simp] theorem State.store_phase (a : Word) (w : Width) (v : Word) : (s.store a w v).phase = s.phase := rfl
@[simp] theorem State.store_ir (a : Word) (w : Width) (v : Word) : (s.store a w v).ir = s.ir := rfl
@[simp] theorem State.store_dev (a : Word) (w : Width) (v : Word) : (s.store a w v).dev = s.dev := rfl
@[simp] theorem State.store_signals (a : Word) (w : Width) (v : Word) : (s.store a w v).signals = s.signals := rfl

@[simp] theorem State.setPhase_regs (p : Phase) : (s.setPhase p).regs = s.regs := rfl
@[simp] theorem State.setPhase_mem (p : Phase) : (s.setPhase p).mem = s.mem := rfl
@[simp] theorem State.setPhase_clk (p : Phase) : (s.setPhase p).clk = s.clk := rfl
@[simp] theorem State.setPhase_run (p : Phase) : (s.setPhase p).run = s.run := rfl
@[simp] theorem State.setPhase_phase (p : Phase) : (s.setPhase p).phase = p := rfl
@[simp] theorem State.setPhase_ir (p : Phase) : (s.setPhase p).ir = s.ir := rfl
@[simp] theorem State.setPhase_dev (p : Phase) : (s.setPhase p).dev = s.dev := rfl
@[simp] theorem State.setPhase_signals (p : Phase) : (s.setPhase p).signals = s.signals := rfl

@[simp] theorem State.setIr_regs (x : Option Word) : (s.setIr x).regs = s.regs := rfl
@[simp] theorem State.setIr_mem (x : Option Word) : (s.setIr x).mem = s.mem := rfl
@[simp] theorem State.setIr_clk (x : Option Word) : (s.setIr x).clk = s.clk := rfl
@[simp] theorem State.setIr_run (x : Option Word) : (s.setIr x).run = s.run := rfl
@[simp] theorem State.setIr_phase (x : Option Word) : (s.setIr x).phase = s.phase := rfl
@[simp] theorem State.setIr_ir (x : Option Word) : (s.setIr x).ir = x := rfl
@[simp] theorem State.setIr_dev (x : Option Word) : (s.setIr x).dev = s.dev := rfl
@[simp] theorem State.setIr_signals (x : Option Word) : (s.setIr x).signals = s.signals := rfl

@[simp] theorem State.tickClock_regs : (s.tickClock).regs = s.regs := rfl
@[simp] theorem State.tickClock_mem : (s.tickClock).mem = s.mem := rfl
@[simp] theorem State.tickClock_clk : (s.tickClock).clk = clockAfter Config.clockWidth s.clk := rfl
@[simp] theorem State.tickClock_run : (s.tickClock).run = s.run := rfl
@[simp] theorem State.tickClock_phase : (s.tickClock).phase = s.phase := rfl
@[simp] theorem State.tickClock_ir : (s.tickClock).ir = s.ir := rfl
@[simp] theorem State.tickClock_dev : (s.tickClock).dev = s.dev := rfl
@[simp] theorem State.tickClock_signals : (s.tickClock).signals = s.signals := rfl

@[simp] theorem State.cancel_regs : (s.cancel).regs = s.regs := rfl
@[simp] theorem State.cancel_mem : (s.cancel).mem = s.mem := rfl
@[simp] theorem State.cancel_clk : (s.cancel).clk = s.clk := rfl
@[simp] theorem State.cancel_run : (s.cancel).run = false := rfl
@[simp] theorem State.cancel_phase : (s.cancel).phase = s.phase := rfl
@[simp] theorem State.cancel_ir : (s.cancel).ir = s.ir := rfl
@[simp] theorem State.cancel_dev : (s.cancel).dev = s.dev := rfl
@[simp] theorem State.cancel_signals : (s.cancel).signals = s.signals := rfl

@[simp] theorem State.applyHandler_regs (e : HandlerEffect) : (s.applyHandler e).regs = e.regs := rfl
@[simp] theorem State.applyHandler_mem (e : HandlerEffect) : (s.applyHandler e).mem = Memory.ofContents e.mem := rfl
@[simp] theorem State.applyHandler_clk (e : HandlerEffect) : (s.applyHandler e).clk = s.clk := rfl
@[simp] theorem State.applyHandler_run (e : HandlerEffect) : (s.applyHandler e).run = s.run := rfl
@[simp] theorem State.applyHandler_phase (e : HandlerEffect) : (s.applyHandler e).phase = s.phase := rfl
@[simp] theorem State.applyHandler_ir (e : HandlerEffect) : (s.applyHandler e).ir = s.ir := rfl
@[simp] theorem State.applyHandler_dev (e : HandlerEffect) : (s.applyHandler e).dev = s.dev := rfl
@[simp] theorem State.applyHandler_signals (e : HandlerEffect) : (s.applyHandler e).signals = s.signals := rfl

@[simp] theorem State.applyDevice_regs (e : DeviceEffect) : (s.applyDevice e).regs = e.regs := rfl
@[simp] theorem State.applyDevice_mem (e : DeviceEffect) : (s.applyDevice e).mem = Memory.ofContents e.mem := rfl
@[simp] theorem State.applyDevice_clk (e : DeviceEffect) : (s.applyDevice e).clk = s.clk := rfl
@[simp] theorem State.applyDevice_run (e : DeviceEffect) : (s.applyDevice e).run = s.run := rfl
@[simp] theorem State.applyDevice_phase (e : DeviceEffect) : (s.applyDevice e).phase = s.phase := rfl
@[simp] theorem State.applyDevice_ir (e : DeviceEffect) : (s.applyDevice e).ir = s.ir := rfl
@[simp] theorem State.applyDevice_dev (e : DeviceEffect) : (s.applyDevice e).dev = some e.dev := rfl
@[simp] theorem State.applyDevice_signals (e : DeviceEffect) : (s.applyDevice e).signals = s.signals := rfl

@[simp] theorem noop_eq : noop s = s := rfl

@[simp] theorem clockAfter_none (clk : Nat) : clockAfter none clk = clk + 1 := rfl

@[simp] theorem clockAfter_config (clk : Nat) : clockAfter Config.clockWidth clk = clk + 1 := rfl

/-! ### The host's signal -/

@[simp] theorem State.takeSignal_regs : s.takeSignal.regs = s.regs := by
  unfold State.takeSignal; cases s.signals <;> simp; split <;> rfl

@[simp] theorem State.takeSignal_mem : s.takeSignal.mem = s.mem := by
  unfold State.takeSignal; cases s.signals <;> simp; split <;> rfl

@[simp] theorem State.takeSignal_clk : s.takeSignal.clk = s.clk := by
  unfold State.takeSignal; cases s.signals <;> simp; split <;> rfl

@[simp] theorem State.takeSignal_phase : s.takeSignal.phase = s.phase := by
  unfold State.takeSignal; cases s.signals <;> simp; split <;> rfl

@[simp] theorem State.takeSignal_ir : s.takeSignal.ir = s.ir := by
  unfold State.takeSignal; cases s.signals <;> simp; split <;> rfl

@[simp] theorem State.takeSignal_dev : s.takeSignal.dev = s.dev := by
  unfold State.takeSignal; cases s.signals <;> simp; split <;> rfl

/-- A signal clears the run-flag; without one it stays. -/
@[simp] theorem State.takeSignal_run : s.takeSignal.run = (s.run && !(s.signals.head?.getD false)) := by
  unfold State.takeSignal; cases s.signals with
  | nil => simp
  | cons raised later => cases raised <;> simp

@[simp] theorem State.takeSignal_signals : s.takeSignal.signals = s.signals.tail := by
  unfold State.takeSignal; cases h : s.signals with
  | nil => simp [h]
  | cons raised later => cases raised <;> rfl

end Sys2Proof.Machine
end

