-- ==== Sys2Proof/Laws/Regs.lean ====
section
/-! SUPPORT. The register file: a read after a write. -/

namespace Sys2Proof.Machine

@[simp] theorem RegFile.get_set_same (f : RegFile) (r : Reg) (v : Word) : (f.set r v).get r = v := by
  cases r <;> rfl

@[simp] theorem RegFile.get_set_ne (f : RegFile) {r q : Reg} (v : Word) (h : q ≠ r) : (f.set r v).get q = f.get q := by
  cases r <;> cases q <;> first | rfl | exact absurd rfl h

theorem RegFile.get_set (f : RegFile) (r q : Reg) (v : Word) : (f.set r v).get q = if q = r then v else f.get q := by
  split
  · next h => subst h; exact get_set_same f q v
  · next h => exact get_set_ne f v h

/-- A register file is its eight values. -/
theorem RegFile.ext_get {f g : RegFile} (h : ∀ r, f.get r = g.get r) : f = g := by
  cases f; cases g
  simp only [RegFile.mk.injEq]
  exact ⟨h .r0, h .r1, h .r2, h .r3, h .r4, h .r5, h .r6, h .r7⟩

@[simp] theorem RegFile.set_get (f : RegFile) (r : Reg) : f.set r (f.get r) = f := by
  cases r <;> rfl

@[simp] theorem RegFile.set_set (f : RegFile) (r : Reg) (v w : Word) : (f.set r v).set r w = f.set r w := by
  cases r <;> rfl

theorem RegFile.set_comm (f : RegFile) {r q : Reg} (v w : Word) (h : q ≠ r) :
    (f.set r v).set q w = (f.set q w).set r v := by
  cases r <;> cases q <;> first | rfl | exact absurd rfl h

@[simp] theorem State.reg_setReg_same (s : State) (r : Reg) (v : Word) : (s.setReg r v).reg r = v :=
  RegFile.get_set_same ..

@[simp] theorem State.reg_setReg_ne (s : State) {r q : Reg} (v : Word) (h : q ≠ r) : (s.setReg r v).reg q = s.reg q :=
  RegFile.get_set_ne _ _ h

theorem State.reg_setReg (s : State) (r q : Reg) (v : Word) :
    (s.setReg r v).reg q = if q = r then v else s.reg q :=
  RegFile.get_set ..

@[simp] theorem State.setReg_reg (s : State) (r : Reg) : s.setReg r (s.reg r) = s := by
  simp [State.setReg, State.reg]

@[simp] theorem State.reg_store (s : State) (a : Word) (w : Width) (v : Word) (r : Reg) :
    (s.store a w v).reg r = s.reg r := rfl

@[simp] theorem State.reg_setPhase (s : State) (p : Phase) (r : Reg) : (s.setPhase p).reg r = s.reg r := rfl

@[simp] theorem State.reg_setIr (s : State) (x : Option Word) (r : Reg) : (s.setIr x).reg r = s.reg r := rfl

@[simp] theorem State.reg_tickClock (s : State) (r : Reg) : s.tickClock.reg r = s.reg r := rfl

@[simp] theorem State.reg_cancel (s : State) (r : Reg) : s.cancel.reg r = s.reg r := rfl

@[simp] theorem State.reg_takeSignal (s : State) (r : Reg) : s.takeSignal.reg r = s.reg r := by
  simp [State.reg]

@[simp] theorem State.byteAt_setReg (s : State) (r : Reg) (v : Word) (a : Word) :
    (s.setReg r v).byteAt a = s.byteAt a := rfl

@[simp] theorem State.load_setReg (s : State) (r : Reg) (v : Word) (a : Word) (w : Width) :
    (s.setReg r v).load a w = s.load a w := rfl

end Sys2Proof.Machine
end

