-- ==== Sys2Proof/Laws/Ops.lean ====
section
/-! SUPPORT. What each shared operation can do: the branches' common rule, an arithmetic slot's entry, the address-register
update and the store, each once, in the words of `EngineUnchanged`, `SameRegsExcept` and `SameBytes`. -/

namespace Sys2Proof.Machine

theorem EngineUnchanged.refl (s : State) : EngineUnchanged s s := ⟨rfl, rfl, rfl, rfl, rfl, rfl⟩

theorem EngineUnchanged.trans {s t u : State} (h : EngineUnchanged s t) (k : EngineUnchanged t u) :
    EngineUnchanged s u :=
  ⟨k.clk.trans h.clk, k.run.trans h.run, k.phase.trans h.phase, k.ir.trans h.ir, k.dev.trans h.dev,
    k.signals.trans h.signals⟩

theorem SameBytes.refl (s : State) : SameBytes s s := fun _ => rfl

theorem SameRegsExcept.refl (rs : List Reg) (s : State) : SameRegsExcept rs s s := fun _ _ => rfl

/-! ### A register write -/

theorem setReg_engineUnchanged (s : State) (r : Reg) (v : Word) : EngineUnchanged s (s.setReg r v) :=
  ⟨rfl, rfl, rfl, rfl, rfl, rfl⟩

theorem setReg_sameBytes (s : State) (r : Reg) (v : Word) : SameBytes s (s.setReg r v) := fun _ => rfl

theorem setReg_sameRegs (s : State) (r : Reg) (v : Word) : SameRegsExcept [r] s (s.setReg r v) := fun _ hq =>
  State.reg_setReg_ne s v (fun h => hq (h ▸ List.mem_singleton_self r))

theorem setReg_setIr (s : State) (r : Reg) (v : Word) (x : Option Word) :
    (s.setIr x).setReg r v = (s.setReg r v).setIr x := rfl

/-! ### A store -/

theorem store_engineUnchanged (s : State) (a : Word) (w : Width) (v : Word) : EngineUnchanged s (s.store a w v) :=
  ⟨rfl, rfl, rfl, rfl, rfl, rfl⟩

/-- The bytes after a store: those of the access, and no other. -/
theorem byteAt_store {s : State} (h : s.mem.wf = true) (a x : Word) (w : Width) (v : Word) :
    (s.store a w v).byteAt x =
      if x = a then lowByte v else if w = .word ∧ x = a + 1 then highByte v else s.byteAt x := by
  cases w with
  | byte =>
    simp only [State.byteAt, State.store_mem, readAt_busWrite_byte h, reduceCtorEq, false_and, if_false]
  | word =>
    simp only [State.byteAt, State.store_mem, readAt_busWrite_word h, true_and]
    by_cases hx : x = a
    · subst hx; rw [if_neg (self_ne_succ x), if_pos rfl, if_pos rfl]
    · rw [if_neg hx, if_neg hx]

theorem byteAt_store_outside {s : State} (h : s.mem.wf = true) {a x : Word} {w : Width} (v : Word)
    (hx : inAccess a w x = false) : (s.store a w v).byteAt x = s.byteAt x := by
  simp only [inAccess, Bool.or_eq_false_iff, beq_eq_false_iff_ne, Bool.and_eq_false_iff] at hx
  rw [byteAt_store h, if_neg hx.1, if_neg]
  rintro ⟨hw, hs⟩
  rcases hx.2 with h2 | h2
  · exact h2 hw
  · exact h2 hs

theorem wf_store {s : State} (h : s.mem.wf = true) (a : Word) (w : Width) (v : Word) :
    (s.store a w v).mem.wf = true := wf_busWrite h a w v

/-! ### Sign-extended offsets (R10, R92, R93, R94) -/

theorem signExtend_eq_ofInt {n : Nat} (v : BitVec n) : signExtend v = BitVec.ofInt 16 v.toInt := rfl

@[simp] theorem signExtend_zero {n : Nat} : signExtend (0 : BitVec n) = 0 := by
  rw [signExtend_eq_ofInt]; simp

/-- A target is the base plus twice the signed number of the field. -/
theorem branchTarget_eq {n : Nat} (base : Word) (v : BitVec n) :
    branchTarget base v = base + BitVec.ofInt 16 (2 * v.toInt) := by
  rw [branchTarget, signExtend_eq_ofInt, BitVec.ofInt_mul]; rfl

/-- No target of an even displacement is masked: bit 0 is that of the base. -/
theorem branchTarget_bit_zero {n : Nat} (base : Word) (v : BitVec n) :
    (branchTarget base v).getLsbD 0 = base.getLsbD 0 := by
  have h : (base + 2 * signExtend v).toNat % 2 = base.toNat % 2 := by
    rw [BitVec.toNat_add, BitVec.toNat_mul, show (2 : Word).toNat = 2 from rfl]; omega
  simp only [branchTarget, BitVec.getLsbD, Nat.testBit_zero, h]

/-- An address of LDR or STR is the base plus the signed number of the field. -/
theorem relativeAddress_eq (base : Word) (v : BitVec 7) : relativeAddress base v = base + BitVec.ofInt 16 v.toInt := rfl

/-! ### The branches' common rule (R151) -/

theorem branchIf_engineUnchanged (c : Cond) (off : BitVec 10) (s : State) : EngineUnchanged s (branchIf c off s) := by
  unfold branchIf; split
  · exact setReg_engineUnchanged ..
  · exact .refl s

theorem branchIf_mem (c : Cond) (off : BitVec 10) (s : State) : (branchIf c off s).mem = s.mem := by
  unfold branchIf; split <;> rfl

theorem branchIf_sameRegs (c : Cond) (off : BitVec 10) (s : State) : SameRegsExcept [.r7] s (branchIf c off s) := by
  unfold branchIf; split
  · exact setReg_sameRegs s .r7 _
  · exact .refl _ s

theorem branchIf_setIr (c : Cond) (off : BitVec 10) (s : State) (x : Option Word) :
    branchIf c off (s.setIr x) = (branchIf c off s).setIr x := by
  simp only [branchIf, State.reg_setIr, apply_ite (fun u : State => u.setIr x), setReg_setIr]
  rfl

theorem branchIf_signals (c : Cond) (off : BitVec 10) (s : State) (x : List Bool) :
    branchIf c off { s with signals := x } = { branchIf c off s with signals := x } := by
  unfold branchIf
  rw [show State.reg { s with signals := x } .psw = s.reg .psw from rfl]
  split <;> rfl

/-! ### An arithmetic slot's entry (R170 to R172) -/

section
variable (reserved : Fin 32 → Bool) (table : Fin 32 → ArithFields → RegFile → (Word → Byte) → HandlerEffect)
  (k : Fin 32) (f : ArithFields) (s : State)

theorem slotEntry_engineUnchanged : EngineUnchanged s (slotEntry reserved table k f s) := by
  unfold slotEntry; split
  · exact .refl s
  · exact ⟨rfl, rfl, rfl, rfl, rfl, rfl⟩

theorem slotEntry_setIr (x : Option Word) :
    slotEntry reserved table k f (s.setIr x) = (slotEntry reserved table k f s).setIr x := by
  unfold slotEntry; split <;> rfl

theorem slotEntry_signals (x : List Bool) :
    slotEntry reserved table k f { s with signals := x } = { slotEntry reserved table k f s with signals := x } := by
  unfold slotEntry; split <;> rfl

theorem wf_slotEntry (h : s.mem.wf = true) : (slotEntry reserved table k f s).mem.wf = true := by
  unfold slotEntry; split
  · exact h
  · exact Memory.wf_ofContents _

end

/-! ### The address register of LD and ST (R210) -/

theorem updateAddressReg_engineUnchanged (s : State) (r : Reg) (dec inc : Bool) (w : Width) :
    EngineUnchanged s (updateAddressReg s r dec inc w) := setReg_engineUnchanged ..

@[simp] theorem updateAddressReg_mem (s : State) (r : Reg) (dec inc : Bool) (w : Width) :
    (updateAddressReg s r dec inc w).mem = s.mem := State.setReg_mem ..

@[simp] theorem reg_updateAddressReg_same (s : State) (r : Reg) (dec inc : Bool) (w : Width) :
    (updateAddressReg s r dec inc w).reg r = s.reg r + indexDelta dec inc w := State.reg_setReg_same ..

@[simp] theorem reg_updateAddressReg_ne (s : State) {r q : Reg} (dec inc : Bool) (w : Width) (h : q ≠ r) :
    (updateAddressReg s r dec inc w).reg q = s.reg q := State.reg_setReg_ne _ _ h

/-- Where neither flag is set the address register is written back its own value. -/
theorem updateAddressReg_none (s : State) (r : Reg) (w : Width) : updateAddressReg s r false false w = s := by
  simp [updateAddressReg, indexDelta]

theorem stepSize_eq (w : Width) : stepSize w = if w = .byte then 1 else 2 := by cases w <;> rfl

/-! ### What a load gives -/

theorem load_byte (s : State) (a : Word) : s.load a .byte = (s.byteAt a).setWidth 16 := by
  simp only [State.load, busRead, zeroExtend, joinBytes, State.byteAt]
  ext i hi
  simp only [BitVec.getElem_append, BitVec.getElem_setWidth]
  split
  · next h => exact (BitVec.getLsbD_eq_getElem h).symm
  · next h => simp [BitVec.getLsbD_of_ge (Memory.readAt s.mem a) i (by omega)]

theorem load_word (s : State) (a : Word) : s.load a .word = s.byteAt (a + 1) ++ s.byteAt a := rfl

end Sys2Proof.Machine
end

