-- ==== Sys2Proof/Laws/Engine.lean ====
section
/-! SUPPORT. What each phase of the engine can do, and how the cycle is made of them. -/

namespace Sys2Proof.Machine

/-! ### FETCH -/

/-- With the default out-of-band sentinel (R122) every fetched word is a word. -/
@[simp] theorem fetched_config (w : Word) : fetched Config.sentinelInBand w = some w := rfl

theorem fetchResult_halt (m : Memory) : fetchResult m Config.haltAddress = none := rfl

theorem fetchResult_ne_halt (m : Memory) {a : Word} (h : a ≠ Config.haltAddress) :
    fetchResult m a = some (fetchWord m a) := by
  simp only [fetchResult, if_neg h, fetched_config]

/-- The fetch after the halt address is at 0x0001 (R124). -/
theorem haltAddress_add_two : Config.haltAddress + 2 = 0x0001 := by decide

/-- FETCH at an address that holds a word (R122, R123). -/
theorem fetchPhase_word {s : State} (h : s.reg .pc ≠ Config.haltAddress) :
    fetchPhase s =
      ((s.setIr (some (fetchWord s.mem (s.reg .pc)))).setReg .pc (s.reg .pc + 2)).setPhase .decode := by
  simp [fetchPhase, fetchResult_ne_halt s.mem h]

/-- FETCH at the halt address (R123, R124). -/
theorem fetchPhase_halt {s : State} (h : s.reg .pc = Config.haltAddress) :
    fetchPhase s = ((s.setIr none).setReg .pc (s.reg .pc + 2)).setPhase .handleDevices := by
  simp [fetchPhase, h, fetchResult_halt]

/-! ### EXECUTE -/

theorem executePhase_next {s t : State} {w : Word} (hw : s.ir = some w) (h : exec (decode w) s = .next t) :
    executePhase s = .next (t.tickClock.setPhase .handleDevices) := by
  simp only [executePhase, hw, h]

/-- A handler that treats every fetched word alike is counted once (R127). -/
theorem countedOnce_of {i : Instr} {s t : State} (h : ∀ x, exec i (s.setIr x) = .next (t.setIr x))
    (hc : t.clk = s.clk) : CountedOnce i s t := by
  intro w hw
  have he : exec (decode w) (s.setIr (some w)) = .next (t.setIr (some w)) := hw ▸ h (some w)
  refine (executePhase_next (s := s.setIr (some w)) rfl he).trans ?_
  rw [← hc]
  rfl

/-! ### HANDLE_DEVICES -/

theorem serviceDevices_absent {s : State} (h : s.dev = none) : serviceDevices s = s := by
  simp only [serviceDevices, h]

theorem serviceDevices_present {s : State} {d : Nat} (h : s.dev = some d) :
    serviceDevices s = s.applyDevice (Config.deviceService d s.regs (Memory.readAt s.mem)) := by
  simp only [serviceDevices, h]

@[simp] theorem serviceDevices_clk (s : State) : (serviceDevices s).clk = s.clk := by
  unfold serviceDevices; split <;> rfl

@[simp] theorem serviceDevices_run (s : State) : (serviceDevices s).run = s.run := by
  unfold serviceDevices; split <;> rfl

@[simp] theorem serviceDevices_phase (s : State) : (serviceDevices s).phase = s.phase := by
  unfold serviceDevices; split <;> rfl

@[simp] theorem serviceDevices_ir (s : State) : (serviceDevices s).ir = s.ir := by
  unfold serviceDevices; split <;> rfl

@[simp] theorem serviceDevices_signals (s : State) : (serviceDevices s).signals = s.signals := by
  unfold serviceDevices; split <;> rfl

theorem wf_serviceDevices {s : State} (h : s.mem.wf = true) : (serviceDevices s).mem.wf = true := by
  unfold serviceDevices; split
  · exact h
  · exact Memory.wf_ofContents _

/-- HANDLE_DEVICES leaves the registers as the hook does. -/
@[simp] theorem devicesPhase_regs (s : State) : (devicesPhase s).regs = (serviceDevices s).regs := by simp [devicesPhase]

@[simp] theorem devicesPhase_mem (s : State) : (devicesPhase s).mem = (serviceDevices s).mem := by simp [devicesPhase]

@[simp] theorem devicesPhase_dev (s : State) : (devicesPhase s).dev = (serviceDevices s).dev := by simp [devicesPhase]

@[simp] theorem devicesPhase_signals (s : State) : (devicesPhase s).signals = s.signals.tail := by simp [devicesPhase]

@[simp] theorem devicesPhase_clk (s : State) : (devicesPhase s).clk = s.clk := by simp [devicesPhase]

@[simp] theorem devicesPhase_phase (s : State) : (devicesPhase s).phase = .fetch := by simp [devicesPhase]

@[simp] theorem devicesPhase_ir (s : State) : (devicesPhase s).ir = none := by simp [devicesPhase]

@[simp] theorem devicesPhase_run (s : State) :
    (devicesPhase s).run = (s.run && !(s.signals.head?.getD false)) := by simp [devicesPhase]

theorem wf_devicesPhase {s : State} (h : s.mem.wf = true) : (devicesPhase s).mem.wf = true := by
  simpa [devicesPhase] using wf_serviceDevices h

/-- With no device HANDLE_DEVICES ends the cycle and takes the signal. -/
theorem devicesPhase_absent {s : State} (h : s.dev = none) :
    devicesPhase s = ((s.setIr none).setPhase .fetch).takeSignal := by
  rw [devicesPhase, serviceDevices_absent h]

/-- With no device and no signal HANDLE_DEVICES only ends the cycle. -/
theorem devicesPhase_quiet {s : State} (hd : s.dev = none) (hs : s.signals = []) :
    devicesPhase s = { s with ir := none, phase := .fetch } := by
  obtain ⟨regs, mem, clk, run, phase, ir, dev, signals⟩ := s
  subst hd hs
  rfl

/-! ### The cycle -/

theorem fromExecute_next {s t : State} (h : executePhase s = .next t) : fromExecute s = .next (devicesPhase t) := by
  simp only [fromExecute, h]

theorem step_ended {s : State} (hf : s.phase = .fetch) (hr : s.run = false) : step s = .next s := by
  simp [step, cycle, hf, hr]

/-- A step at the halt address (R124). -/
theorem step_idle {s : State} (hf : s.phase = .fetch) (hr : s.run = true) (hp : s.reg .pc = Config.haltAddress) :
    step s = .next (devicesPhase (fetchPhase s)) := by
  simp [step, cycle, hf, hr, afterFetch, fetchPhase_halt hp]

/-- The state in which EXECUTE begins, from the top of the loop (R122, R123, R125). -/
theorem decodePhase_fetchPhase {s : State} (hp : s.reg .pc ≠ Config.haltAddress) :
    decodePhase (fetchPhase s) =
      { s with regs := s.regs.set .r7 (s.reg .r7 + 2), phase := .execute, ir := some (fetchWord s.mem (s.reg .r7)) } := by
  rw [fetchPhase_word hp]; rfl

/-- A step at any other address: FETCH, DECODE, EXECUTE, HANDLE_DEVICES (R131). -/
theorem step_executes {s : State} (hf : s.phase = .fetch) (hr : s.run = true) (hp : s.reg .pc ≠ Config.haltAddress) :
    step s = fromExecute (decodePhase (fetchPhase s)) := by
  simp [step, cycle, hf, hr, afterFetch, fetchPhase_word hp]

end Sys2Proof.Machine
end

