-- ==== Sys2Proof/Laws/Exec.lean ====
section
/-! SUPPORT. No handler sees the engine's fields: another fetched word or other signals to come pass through `exec`. -/

namespace Sys2Proof.Machine

/-- A handler treats every fetched word alike. -/
theorem exec_setIr {i : Instr} {s t : State} (x : Option Word) (h : exec i s = .next t) :
    exec i (s.setIr x) = .next (t.setIr x) := by
  cases i <;> simp only [exec, execBeq, execBne, execBc, execBnc, execBn, execBge, execBlt, execBal,
    branchIf_setIr] at h ⊢ <;> cases h <;> first
    | rfl
    | exact congrArg Host.Outcome.next (slotEntry_setIr ..)
    | (simp only [execLd, execSt]; split <;> rfl)

/-- A handler treats every list of signals to come alike. -/
theorem exec_signals {i : Instr} {s t : State} (x : List Bool) (h : exec i s = .next t) :
    exec i { s with signals := x } = .next { t with signals := x } := by
  cases i <;> simp only [exec, execBeq, execBne, execBc, execBnc, execBn, execBge, execBlt, execBal,
    branchIf_signals] at h ⊢ <;> cases h <;> first
    | rfl
    | exact congrArg Host.Outcome.next (slotEntry_signals ..)
    | (simp only [execLd, execSt]; split <;> rfl)

/-- EXECUTE counts every instruction once (R127). -/
theorem countedOnce {i : Instr} {s t : State} (h : exec i s = .next t) (hc : t.clk = s.clk) : CountedOnce i s t :=
  countedOnce_of (fun x => exec_setIr x h) hc

end Sys2Proof.Machine
end

