-- ==== Sys2Proof/Laws/PerInstr.lean ====
section
/-! SUPPORT. The per-instruction family RoundTrip: the decoder reads from an instruction's word the instruction. One lemma
for each constructor of `Instr`. -/

namespace Sys2Proof.Laws.RoundTrip

/-- Decoding the encoding of a well-formed instruction gives it back. -/
def Statement (i : Instr) : Prop := i.wellFormed = true → decode (encode i) = i

/-- A branch word decodes to its branch. -/
theorem of_branchWord (c : Cond) (off10 : BitVec 10) : decode (branchWord c off10) = branchInstr c off10 := by
  rw [branchWord, decode_branch, condOfBits_condBits]

/-- An arithmetic word decodes to its slot's instruction. -/
theorem of_arithWord (k : BitVec 5) (rc : SrcKind) (wb : Width) (src dst : Reg) :
    decode (arithWord k rc wb src dst) = slotInstr k.toNat rc wb src dst := by
  rw [arithWord, decode_arithmetic, srcKindOfBit_srcKindBit, widthOfBit_widthBit, regOfBits_regBits, regOfBits_regBits]

theorem movh (imm8 : Byte) (dst : Reg) : Statement (.movh imm8 dst) := fun _ => by
  rw [encode, decode_moveHigh, regOfBits_regBits]

theorem bl (off12 : BitVec 12) : Statement (.bl off12) := fun _ => by
  rw [encode, decode_branchAndLink]

theorem beq (off10 : BitVec 10) : Statement (.beq off10) := fun _ => of_branchWord .eq off10

theorem bne (off10 : BitVec 10) : Statement (.bne off10) := fun _ => of_branchWord .ne off10

theorem bc (off10 : BitVec 10) : Statement (.bc off10) := fun _ => of_branchWord .cs off10

theorem bnc (off10 : BitVec 10) : Statement (.bnc off10) := fun _ => of_branchWord .cc off10

theorem bn (off10 : BitVec 10) : Statement (.bn off10) := fun _ => of_branchWord .neg off10

theorem bge (off10 : BitVec 10) : Statement (.bge off10) := fun _ => of_branchWord .ge off10

theorem blt (off10 : BitVec 10) : Statement (.blt off10) := fun _ => of_branchWord .lt off10

theorem bal (off10 : BitVec 10) : Statement (.bal off10) := fun _ => of_branchWord .al off10

theorem a0 (rc : SrcKind) (wb : Width) (src dst : Reg) : Statement (.a0 rc wb src dst) :=
  fun _ => of_arithWord 0 rc wb src dst

theorem a1 (rc : SrcKind) (wb : Width) (src dst : Reg) : Statement (.a1 rc wb src dst) :=
  fun _ => of_arithWord 1 rc wb src dst

theorem a2 (rc : SrcKind) (wb : Width) (src dst : Reg) : Statement (.a2 rc wb src dst) :=
  fun _ => of_arithWord 2 rc wb src dst

theorem a3 (rc : SrcKind) (wb : Width) (src dst : Reg) : Statement (.a3 rc wb src dst) :=
  fun _ => of_arithWord 3 rc wb src dst

theorem a4 (rc : SrcKind) (wb : Width) (src dst : Reg) : Statement (.a4 rc wb src dst) :=
  fun _ => of_arithWord 4 rc wb src dst

theorem a5 (rc : SrcKind) (wb : Width) (src dst : Reg) : Statement (.a5 rc wb src dst) :=
  fun _ => of_arithWord 5 rc wb src dst

theorem a6 (rc : SrcKind) (wb : Width) (src dst : Reg) : Statement (.a6 rc wb src dst) :=
  fun _ => of_arithWord 6 rc wb src dst

theorem a7 (rc : SrcKind) (wb : Width) (src dst : Reg) : Statement (.a7 rc wb src dst) :=
  fun _ => of_arithWord 7 rc wb src dst

theorem a8 (rc : SrcKind) (wb : Width) (src dst : Reg) : Statement (.a8 rc wb src dst) :=
  fun _ => of_arithWord 8 rc wb src dst

theorem a9 (rc : SrcKind) (wb : Width) (src dst : Reg) : Statement (.a9 rc wb src dst) :=
  fun _ => of_arithWord 9 rc wb src dst

theorem a10 (rc : SrcKind) (wb : Width) (src dst : Reg) : Statement (.a10 rc wb src dst) :=
  fun _ => of_arithWord 10 rc wb src dst

theorem a11 (rc : SrcKind) (wb : Width) (src dst : Reg) : Statement (.a11 rc wb src dst) :=
  fun _ => of_arithWord 11 rc wb src dst

theorem a12 (rc : SrcKind) (wb : Width) (src dst : Reg) : Statement (.a12 rc wb src dst) :=
  fun _ => of_arithWord 12 rc wb src dst

theorem a13 (rc : SrcKind) (wb : Width) (src dst : Reg) : Statement (.a13 rc wb src dst) :=
  fun _ => of_arithWord 13 rc wb src dst

theorem a14 (rc : SrcKind) (wb : Width) (src dst : Reg) : Statement (.a14 rc wb src dst) :=
  fun _ => of_arithWord 14 rc wb src dst

theorem a15 (rc : SrcKind) (wb : Width) (src dst : Reg) : Statement (.a15 rc wb src dst) :=
  fun _ => of_arithWord 15 rc wb src dst

theorem a16 (rc : SrcKind) (wb : Width) (src dst : Reg) : Statement (.a16 rc wb src dst) :=
  fun _ => of_arithWord 16 rc wb src dst

theorem a17 (rc : SrcKind) (wb : Width) (src dst : Reg) : Statement (.a17 rc wb src dst) :=
  fun _ => of_arithWord 17 rc wb src dst

theorem a18 (rc : SrcKind) (wb : Width) (src dst : Reg) : Statement (.a18 rc wb src dst) :=
  fun _ => of_arithWord 18 rc wb src dst

theorem a19 (rc : SrcKind) (wb : Width) (src dst : Reg) : Statement (.a19 rc wb src dst) :=
  fun _ => of_arithWord 19 rc wb src dst

theorem a20 (rc : SrcKind) (wb : Width) (src dst : Reg) : Statement (.a20 rc wb src dst) :=
  fun _ => of_arithWord 20 rc wb src dst

theorem a21 (rc : SrcKind) (wb : Width) (src dst : Reg) : Statement (.a21 rc wb src dst) :=
  fun _ => of_arithWord 21 rc wb src dst

theorem a22 (rc : SrcKind) (wb : Width) (src dst : Reg) : Statement (.a22 rc wb src dst) :=
  fun _ => of_arithWord 22 rc wb src dst

theorem a23 (rc : SrcKind) (wb : Width) (src dst : Reg) : Statement (.a23 rc wb src dst) :=
  fun _ => of_arithWord 23 rc wb src dst

theorem a24 (rc : SrcKind) (wb : Width) (src dst : Reg) : Statement (.a24 rc wb src dst) :=
  fun _ => of_arithWord 24 rc wb src dst

theorem a25 (rc : SrcKind) (wb : Width) (src dst : Reg) : Statement (.a25 rc wb src dst) :=
  fun _ => of_arithWord 25 rc wb src dst

theorem a26 (rc : SrcKind) (wb : Width) (src dst : Reg) : Statement (.a26 rc wb src dst) :=
  fun _ => of_arithWord 26 rc wb src dst

theorem a27 (rc : SrcKind) (wb : Width) (src dst : Reg) : Statement (.a27 rc wb src dst) :=
  fun _ => of_arithWord 27 rc wb src dst

theorem a28 (rc : SrcKind) (wb : Width) (src dst : Reg) : Statement (.a28 rc wb src dst) :=
  fun _ => of_arithWord 28 rc wb src dst

theorem a29 (rc : SrcKind) (wb : Width) (src dst : Reg) : Statement (.a29 rc wb src dst) :=
  fun _ => of_arithWord 29 rc wb src dst

theorem a30 (rc : SrcKind) (wb : Width) (src dst : Reg) : Statement (.a30 rc wb src dst) :=
  fun _ => of_arithWord 30 rc wb src dst

theorem a31 (rc : SrcKind) (wb : Width) (src dst : Reg) : Statement (.a31 rc wb src dst) :=
  fun _ => of_arithWord 31 rc wb src dst

theorem ld (prpo : IndexMode) (dec inc : Bool) (wb : Width) (src dst : Reg) :
    Statement (.ld prpo dec inc wb src dst) := fun _ => by
  rw [encode, indexedWord, decode_load, indexModeOfBit_indexModeBit, bitSet_flagBit, bitSet_flagBit,
    widthOfBit_widthBit, regOfBits_regBits, regOfBits_regBits]

theorem st (prpo : IndexMode) (dec inc : Bool) (wb : Width) (src dst : Reg) :
    Statement (.st prpo dec inc wb src dst) := fun _ => by
  rw [encode, indexedWord, decode_store, indexModeOfBit_indexModeBit, bitSet_flagBit, bitSet_flagBit,
    widthOfBit_widthBit, regOfBits_regBits, regOfBits_regBits]

theorem movl (imm8 : Byte) (dst : Reg) : Statement (.movl imm8 dst) := fun _ => by
  rw [encode, decode_moveLow, regOfBits_regBits]

theorem movlz (imm8 : Byte) (dst : Reg) : Statement (.movlz imm8 dst) := fun _ => by
  rw [encode, decode_moveLowZero, regOfBits_regBits]

theorem ldr (off7 : BitVec 7) (wb : Width) (src dst : Reg) : Statement (.ldr off7 wb src dst) := fun _ => by
  rw [encode, decode_loadRelative, widthOfBit_widthBit, regOfBits_regBits, regOfBits_regBits]

theorem str (off7 : BitVec 7) (wb : Width) (src dst : Reg) : Statement (.str off7 wb src dst) := fun _ => by
  rw [encode, decode_storeRelative, widthOfBit_widthBit, regOfBits_regBits, regOfBits_regBits]

end Sys2Proof.Laws.RoundTrip
end

