-- ==== Sys2Proof/Tests/Slice0.lean ====
section
/-! SUPPORT. The model's own tests. Words and expected values come from the encoding strings and the examples of the spec's
rules and from spec/95_test_vectors.md; a `witness_` theorem shows a state and operands that meet the hypotheses of the
obligation it names. -/

namespace Sys2Proof.Tests

open Sys2Proof Sys2Proof.Machine

/-! ### WellFormed: no term is ill-formed, and an offset outside its field is refused (R92, R93, R94, R98, R104) -/

theorem test_every_operand_is_well_formed : Instr.wellFormed (.bl 0x800) = true ∧ Instr.wellFormed (.beq 0x3FF) = true ∧
    Instr.wellFormed (.str 0x7F .byte .r7 .r7) = true ∧ Instr.wellFormed (.ld .pre true true .byte .r7 .r7) = true := by
  decide

theorem test_bl_offset_range : offsetField 11 2047 = some 0x7FF ∧ offsetField 11 (-2048) = some 0x800 ∧
    offsetField 11 2048 = none ∧ offsetField 11 (-2049) = none := by decide

theorem test_branch_offset_range : offsetField 9 511 = some 0x1FF ∧ offsetField 9 (-512) = some 0x200 ∧
    offsetField 9 512 = none ∧ offsetField 9 (-513) = none := by decide

theorem test_relative_offset_range : offsetField 6 63 = some 0x3F ∧ offsetField 6 (-64) = some 0x40 ∧
    offsetField 6 64 = none ∧ offsetField 6 (-65) = none := by decide

/-- The assembler refuses a statement whose offset is out of range, and takes the last one in range (R108). -/
theorem test_assembler_refuses_out_of_range :
    [Asm.Stmt.bl 0x1102, .call 0x1102, .bl 0xF100, .branch .ge 0x0502, .b 0x0502, .branch .al 0xFD00,
     .ldr .word 64 .r0 .r0, .str .byte (-65) .r0 .r0].all (fun stmt => (stmt.words 0x0100).isNone) = true ∧
    Asm.Stmt.words 0x0100 (.bl 0x1100) = some [0x17FF] ∧ Asm.Stmt.words 0x0100 (.b 0x0500) = some [0x3DFF] ∧
    Asm.Stmt.words 0x0100 (.bl 0xF102) = some [0x1800] ∧ Asm.Stmt.words 0x0100 (.str .word (-64) .r1 .r2) = some [0xE00A] := by
  decide

/-! ### Decoding: a word of each row, bit by bit from R84 to R91 and R173 to R204 -/

theorem test_decode_moves : decode 0b0000000010010001 = .movh 0x12 .r1 ∧ decode 0b0000100010010001 = .movh 0x12 .r1 ∧
    decode 0b0111000110100001 = .movl 0x34 .r1 ∧ decode 0b0111100110100001 = .movlz 0x34 .r1 := by decide

theorem test_decode_bl : decode 0b0001000000000100 = .bl 0x004 ∧ decode 0b0001111111111111 = .bl 0xFFF ∧
    decode 0b0001011111111111 = .bl 0x7FF ∧ decode 0b0001100000000000 = .bl 0x800 := by decide

theorem test_decode_branches : decode 0b0010000000000011 = .beq 3 ∧ decode 0b0010011111111110 = .bne 0x3FE ∧
    decode 0b0010100000000001 = .bc 1 ∧ decode 0b0010110000000000 = .bnc 0 ∧ decode 0b0011000000010000 = .bn 16 ∧
    decode 0b0011010000000001 = .bge 1 ∧ decode 0b0011100000000001 = .blt 1 ∧ decode 0b0011110111111111 = .bal 0x1FF ∧
    decode 0b0011111000000000 = .bal 0x200 := by decide

theorem test_decode_slots_0_to_7 :
    decode 0b0100000000001010 = .a0 .register .word .r1 .r2 ∧
    decode 0b0100000101010011 = .a1 .register .byte .r2 .r3 ∧
    decode 0b0100001010011100 = .a2 .constant .word .r3 .r4 ∧
    decode 0b0100001111100101 = .a3 .constant .byte .r4 .r5 ∧
    decode 0b0100010000101110 = .a4 .register .word .r5 .r6 ∧
    decode 0b0100010101110111 = .a5 .register .byte .r6 .r7 ∧
    decode 0b0100011010111000 = .a6 .constant .word .r7 .r0 ∧
    decode 0b0100011111000001 = .a7 .constant .byte .r0 .r1 := by decide

theorem test_decode_slots_8_to_15 :
    decode 0b0100100000001010 = .a8 .register .word .r1 .r2 ∧
    decode 0b0100100101010011 = .a9 .register .byte .r2 .r3 ∧
    decode 0b0100101010011100 = .a10 .constant .word .r3 .r4 ∧
    decode 0b0100101111100101 = .a11 .constant .byte .r4 .r5 ∧
    decode 0b0100110000101110 = .a12 .register .word .r5 .r6 ∧
    decode 0b0100110101110111 = .a13 .register .byte .r6 .r7 ∧
    decode 0b0100111010111000 = .a14 .constant .word .r7 .r0 ∧
    decode 0b0100111111000001 = .a15 .constant .byte .r0 .r1 := by decide

theorem test_decode_slots_16_to_23 :
    decode 0b0101000000001010 = .a16 .register .word .r1 .r2 ∧
    decode 0b0101000101010011 = .a17 .register .byte .r2 .r3 ∧
    decode 0b0101001010011100 = .a18 .constant .word .r3 .r4 ∧
    decode 0b0101001111100101 = .a19 .constant .byte .r4 .r5 ∧
    decode 0b0101010000101110 = .a20 .register .word .r5 .r6 ∧
    decode 0b0101010101110111 = .a21 .register .byte .r6 .r7 ∧
    decode 0b0101011010111000 = .a22 .constant .word .r7 .r0 ∧
    decode 0b0101011111000001 = .a23 .constant .byte .r0 .r1 := by decide

theorem test_decode_slots_24_to_31 :
    decode 0b0101100000001010 = .a24 .register .word .r1 .r2 ∧
    decode 0b0101100101010011 = .a25 .register .byte .r2 .r3 ∧
    decode 0b0101101010011100 = .a26 .constant .word .r3 .r4 ∧
    decode 0b0101101111100101 = .a27 .constant .byte .r4 .r5 ∧
    decode 0b0101110000101110 = .a28 .register .word .r5 .r6 ∧
    decode 0b0101110101110111 = .a29 .register .byte .r6 .r7 ∧
    decode 0b0101111010111000 = .a30 .constant .word .r7 .r0 ∧
    decode 0b0101111111000001 = .a31 .constant .byte .r0 .r1 := by decide

theorem test_decode_indexed : decode 0b0110000101001010 = .ld .post false true .byte .r1 .r2 ∧
    decode 0b0110011000001011 = .ld .pre true false .word .r1 .r3 ∧
    decode 0b0110101001010001 = .st .post true false .byte .r2 .r1 ∧
    decode 0b0110111000010011 = .st .pre true false .word .r2 .r3 ∧
    decode 0b0110011111111111 = .ld .pre true true .byte .r7 .r7 := by decide

theorem test_decode_relative : decode 0b1000001000001010 = .ldr 4 .word .r1 .r2 ∧
    decode 0b1011111111001010 = .ldr 0x7F .byte .r1 .r2 ∧ decode 0b1100001100010011 = .str 6 .word .r2 .r3 ∧
    decode 0b1110000001010011 = .str 0x40 .byte .r2 .r3 ∧ decode 0b1111111111111111 = .str 0x7F .byte .r7 .r7 := by decide

/-- The decoder of bytes takes the low byte first and refuses a lone byte by name (R55, R80). -/
theorem test_decode_bytes : decodeBytes [0x04, 0x10, 0xAA] = .ok (.bl 0x004, [0xAA]) ∧
    decodeBytes [0x04] = .error .truncated := by decide

theorem test_decode_table_word : decodeTableWord 16 0x1004 = some (.bl 0x004) ∧
    decodeTableWord 8 0x1004 = some (.movh 0 .r4) := by decide

theorem test_encode : encode (.bl 0xFFF) = 0x1FFF ∧ encode (.bge 1) = 0x3401 ∧
    encode (.ld .post false true .byte .r1 .r2) = 0x614A ∧ encode (.str 6 .word .r2 .r3) = 0xC313 ∧
    encode (.a31 .constant .byte .r7 .r7) = 0x5FFF := by decide

/-! ### Small states -/

/-- All eight registers zero. -/
def zeroRegs : RegFile := ⟨0, 0, 0, 0, 0, 0, 0, 0⟩

/-- A run about to begin with these registers, this PC and these bytes. -/
def start (regs : RegFile) (pc : Word) (image : List (Word × Byte)) : State :=
  State.launch { regs := regs, pc := pc, image := image, dev := none } []

/-- The state of an outcome. -/
def stateOf (o : Host.Outcome State Fault Refusal) : Option State :=
  match o with
  | .next t => some t
  | .fault _ => none
  | .refused _ => none

/-- One step with the word `w` at `a`, and what `view` sees of the state after it. -/
def after {α : Type} (regs : RegFile) (a w : Word) (image : List (Word × Byte)) (view : State → α) : Option α :=
  (stateOf (step (start regs a (image ++ [(a, lowByte w), (a + 1, highByte w)])))).map view

/-- What one instruction does, seen through `view`. -/
def effect {α : Type} (i : Instr) (s : State) (view : State → α) : Option α := (stateOf (exec i s)).map view

/-- The six bytes at 0x03FE of the vectors L2.4 and L2.5. -/
def sixBytes : List (Word × Byte) :=
  [(0x03FE, 0x11), (0x03FF, 0x22), (0x0400, 0x33), (0x0401, 0x44), (0x0402, 0x55), (0x0403, 0x66)]

/-- The bytes 0x03FE to 0x0403 of a state. -/
def sixBytesOf (s : State) : List Byte :=
  [s.byteAt 0x03FE, s.byteAt 0x03FF, s.byteAt 0x0400, s.byteAt 0x0401, s.byteAt 0x0402, s.byteAt 0x0403]

/-! ### BL and the branches (L1.1, L2.2, L2.3) -/

theorem test_bl_example : after zeroRegs 0x0100 0x1004 [] (fun t => (t.reg .r4, t.reg .r7, t.clk)) =
    some (0x0102, 0x010A, 1) := by decide

theorem test_bl_wraps_from_odd_address : after zeroRegs 0x0001 0x1002 [] (fun t => (t.reg .r4, t.reg .r7)) =
    some (0x0003, 0x0007) ∧ after zeroRegs 0x0100 0x1800 [] (fun t => (t.reg .r4, t.reg .r7)) =
    some (0x0102, 0xF102) := by decide

/-- The next fetch address of a branch word at 0x0200 under each PSW of L2.3. -/
def branchRow (w : Word) : List (Option Word) :=
  [0x0000, 0x0001, 0x0002, 0x0004, 0x0010, 0x0014, 0x0017, 0xFFE0].map fun psw =>
    after { zeroRegs with r6 := psw } 0x0200 w [] (fun t => t.reg .r7)

/-- Taken and not taken, for `off10 = 16` at 0x0200. -/
def outcomes (taken : List Bool) : List (Option Word) := taken.map fun b => some (if b then 0x0222 else 0x0202)

theorem test_beq : branchRow 0x2010 = outcomes [false, false, true, false, false, false, true, false] := by decide
theorem test_bne : branchRow 0x2410 = outcomes [true, true, false, true, true, true, false, true] := by decide
theorem test_bc : branchRow 0x2810 = outcomes [false, true, false, false, false, false, true, false] := by decide
theorem test_bnc : branchRow 0x2C10 = outcomes [true, false, true, true, true, true, false, true] := by decide
theorem test_bn : branchRow 0x3010 = outcomes [false, false, false, true, false, true, true, false] := by decide
theorem test_bge : branchRow 0x3410 = outcomes [true, true, true, false, false, true, true, true] := by decide
theorem test_blt : branchRow 0x3810 = outcomes [false, false, false, true, true, false, false, false] := by decide
theorem test_bal : branchRow 0x3C10 = outcomes [true, true, true, true, true, true, true, true] := by decide

theorem test_bal_wraps : after zeroRegs 0x0000 0x3E00 [] (fun t => (t.reg .r7, t.clk)) = some (0xFC02, 1) ∧
    after zeroRegs 0xFFFE 0x3C01 [] (fun t => (t.reg .r7, t.clk)) = some (0x0002, 1) := by decide

/-! ### Arithmetic slots (L1.6) -/

/-- A slot's entry for a table whose handlers exchange R1 and R2 and clear every byte. -/
def swapEntry (reserved : Fin 32 → Bool) (s : State) : State :=
  slotEntry reserved (fun _ _ f _ => { regs := { f with r1 := f.r2, r2 := f.r1 }, mem := fun _ => Config.unwrittenByte }) 5
    ⟨.register, .word, .r1, .r2⟩ s

theorem test_reserved_slot_changes_nothing :
    swapEntry (fun k => k == 5) (start { zeroRegs with r1 := 3 } 0x0100 [(0x0200, 0xAA)]) =
      start { zeroRegs with r1 := 3 } 0x0100 [(0x0200, 0xAA)] := by decide

theorem test_slot_runs_its_handler :
    ((swapEntry (fun _ => false) (start { zeroRegs with r1 := 3 } 0x0100 [])).reg .r2,
      (swapEntry (fun _ => false) (start { zeroRegs with r1 := 3 } 0x0100 [])).reg .r1) = (3, 0) := by decide

theorem test_slot_word_steps : ∃ t, step (State.reset.withFetchWord 16 0x450A) = .next t := ⟨_, rfl⟩

/-! ### LD and ST (L2.4, L2.5) -/

/-- R1 and R3 after a load word, with R1 = 0x0400 before. -/
def loads (w : Word) : Option (Word × Word) :=
  after { zeroRegs with r1 := 0x0400 } 0x0100 w sixBytes (fun t => (t.reg .r1, t.reg .r3))

theorem test_ld_word_modes : [0x600B, 0x610B, 0x620B, 0x650B, 0x660B, 0x640B, 0x630B].map loads =
    [some (0x0400, 0x4433), some (0x0402, 0x4433), some (0x03FE, 0x4433), some (0x0402, 0x6655), some (0x03FE, 0x2211),
     some (0x0400, 0x4433), some (0x0400, 0x0000)] := by decide

theorem test_ld_byte_modes : [0x604B, 0x614B, 0x624B, 0x654B, 0x664B, 0x634B].map loads =
    [some (0x0400, 0x0033), some (0x0401, 0x0033), some (0x03FF, 0x0033), some (0x0401, 0x0044), some (0x03FF, 0x0022),
     some (0x0400, 0x0000)] := by decide

/-- R1 and the six bytes after a store word, with R1 = 0x0400 and R2 = 0xBEEF before. -/
def stores (w : Word) : Option (Word × List Byte) :=
  after { zeroRegs with r1 := 0x0400, r2 := 0xBEEF } 0x0100 w sixBytes (fun t => (t.reg .r1, sixBytesOf t))

theorem test_st_word_modes : [0x6811, 0x6911, 0x6A11, 0x6D11, 0x6E11, 0x6F11].map stores =
    [some (0x0400, [0x11, 0x22, 0xEF, 0xBE, 0x55, 0x66]), some (0x0402, [0x11, 0x22, 0xEF, 0xBE, 0x55, 0x66]),
     some (0x03FE, [0x11, 0x22, 0xEF, 0xBE, 0x55, 0x66]), some (0x0402, [0x11, 0x22, 0x33, 0x44, 0xEF, 0xBE]),
     some (0x03FE, [0xEF, 0xBE, 0x33, 0x44, 0x55, 0x66]), some (0x0400, [0x11, 0x22, 0x33, 0x44, 0x55, 0x66])] := by decide

theorem test_st_byte_modes : [0x6851, 0x6951, 0x6A51, 0x6D51, 0x6E51, 0x6F51].map stores =
    [some (0x0400, [0x11, 0x22, 0xEF, 0x44, 0x55, 0x66]), some (0x0401, [0x11, 0x22, 0xEF, 0x44, 0x55, 0x66]),
     some (0x03FF, [0x11, 0x22, 0xEF, 0x44, 0x55, 0x66]), some (0x0401, [0x11, 0x22, 0x33, 0xEF, 0x55, 0x66]),
     some (0x03FF, [0x11, 0xEF, 0x33, 0x44, 0x55, 0x66]), some (0x0400, [0x11, 0x22, 0x33, 0x44, 0x55, 0x66])] := by decide

/-- Source and destination one register: the load wins, the store's value is sampled first (D13). -/
theorem test_indexed_same_register :
    after { zeroRegs with r1 := 0x0400 } 0x0100 0x6109 sixBytes (fun t => t.reg .r1) = some 0x4433 ∧
    after { zeroRegs with r1 := 0x0400 } 0x0100 0x6E09 sixBytes (fun t => (t.reg .r1, t.byteAt 0x03FE, t.byteAt 0x03FF)) =
      some (0x03FE, 0x00, 0x04) := by decide

/-- A word load at 0xFFFF wraps, and `LD PC+, R2` loads the literal after it and skips it. -/
theorem test_ld_wraps_and_skips :
    after { zeroRegs with r1 := 0xFFFF } 0x0100 0x610B [(0xFFFF, 0xCD), (0x0000, 0xAB)] (fun t => (t.reg .r3, t.reg .r1)) =
      some (0xABCD, 0x0001) ∧
    after zeroRegs 0x0100 0x613A [(0x0102, 0xFE), (0x0103, 0xCA)] (fun t => (t.reg .r2, t.reg .r7)) =
      some (0xCAFE, 0x0104) := by decide

/-! ### Moves (L2.6) -/

/-- R1 after a move word, with R1 = 0xABCD before. -/
def moves (w : Word) : Option Word := after { zeroRegs with r1 := 0xABCD } 0x0100 w [] (fun t => t.reg .r1)

theorem test_moves : [0x71A1, 0x7001, 0x79A1, 0x7FF9, 0x0091, 0x0891, 0x07F9, 0x0001].map moves =
    [some 0xAB34, some 0xAB00, some 0x0034, some 0x00FF, some 0x12CD, some 0x12CD, some 0xFFCD, some 0x00CD] := by decide

/-- Moves into R7 jump, and into R6 set the flags. -/
theorem test_moves_to_pc_and_psw : after zeroRegs 0x0300 0x7207 [] (fun t => t.reg .r7) = some 0x0340 ∧
    after zeroRegs 0x0300 0x7A07 [] (fun t => t.reg .r7) = some 0x0040 ∧
    after zeroRegs 0x01FD 0x07FF [] (fun t => t.reg .r7) = some 0xFFFF ∧
    after zeroRegs 0x0300 0x78BE [] (fun t => (t.reg .r6, t.reg .r7)) = some (0x0017, 0x0302) := by decide

/-! ### LDR and STR (L2.7) -/

theorem test_ldr : after { zeroRegs with r1 := 0x0400 } 0x0100 0x820A [(0x0404, 0x78), (0x0405, 0x56)]
      (fun t => t.reg .r2) = some 0x5678 ∧
    after { zeroRegs with r1 := 0xFFF0, r2 := 0xFFFF } 0x0100 0x9FCA [(0x002F, 0x9A)] (fun t => t.reg .r2) = some 0x009A ∧
    after zeroRegs 0x0100 0xBF3F [] (fun t => t.reg .r7) = some 0xBF3F := by decide

theorem test_str : after { zeroRegs with r2 := 0xBEEF, r3 := 0x0500 } 0x0100 0xC313 []
      (fun t => (t.byteAt 0x0506, t.byteAt 0x0507)) = some (0xEF, 0xBE) ∧
    after { zeroRegs with r2 := 0xBEEF, r3 := 0x0500 } 0x0100 0xE053 [] (fun t => (t.byteAt 0x04C0, t.byteAt 0x04C1)) =
      some (0xEF, 0x00) ∧
    after { zeroRegs with r2 := 0xA55A, r3 := 0xFFFF } 0x0100 0xC013 [] (fun t => (t.byteAt 0xFFFF, t.byteAt 0x0000)) =
      some (0x5A, 0xA5) ∧
    after zeroRegs 0x0200 0xFFFF [] (fun t => (t.byteAt 0x0201, t.reg .r7)) = some (0x02, 0x0202) := by decide

/-! ### The engine (L1.3, L1.7, L2.8) -/

theorem test_idle_cycle : (stateOf (step (start ⟨1, 2, 3, 4, 5, 6, 7, 0⟩ 0xFFFF [(0x0001, 0x87)]))).map
    (fun t => (t.regs, t.mem, t.clk)) = some (⟨1, 2, 3, 4, 5, 6, 7, 0x0001⟩, [(1, 0x87)], 0) := by decide

theorem test_fetch_at_fffe : after zeroRegs 0xFFFE 0x3C00 [] (fun t => (t.reg .r7, t.clk)) = some (0x0000, 1) := by decide

/-- A signal in the cycle of BL lets it complete and ends the run after it. -/
theorem test_cancel_after_the_cycle :
    (stateOf (step { start zeroRegs 0x0104 [(0x0104, 0x7D), (0x0105, 0x10)] with signals := [true] })).map
      (fun t => (t.reg .r4, t.reg .r7, t.clk, t.run)) = some (0x0106, 0x0200, 1, false) := by decide

theorem test_ended_run_stays : step { start zeroRegs 0x0100 [] with run := false } =
    .next { start zeroRegs 0x0100 [] with run := false } := rfl

/-- The first step after reset runs the placed word (R300). -/
theorem test_with_fetch_word : (stateOf (step (State.reset.withFetchWord 16 0x79A1))).map (fun t => (t.reg .r1, t.clk)) =
    some (0x0034, 1) := by decide

/-- A byte write of the value an unlisted byte reads as leaves nothing listed. -/
theorem test_canonical_memory : Memory.writeAt (Memory.writeAt [] 0x0400 0xEF) 0x0400 0x00 = [] ∧
    Memory.writeAt (Memory.writeAt [] 0x0401 0xBE) 0x0400 0xEF = [(0x0400, 0xEF), (0x0401, 0xBE)] := by decide

/-- `CALL`, `MOVI` and `NOP` of R109 at program P2's addresses. -/
theorem test_assembler : Asm.Stmt.words 0x0104 (.call 0x0200) = some [0x107D] ∧
    Asm.Stmt.words 0x0100 (.movi 0x1234 .r1) = some [0x79A1, 0x0091] ∧ Asm.Stmt.words 0x0000 .nop = some [0x3C00] ∧
    Asm.Stmt.words 0x0100 (.bl 0x0201) = none ∧ Asm.Stmt.words 0x0100 (.branch .eq 0x1000) = none := by decide

/-! ### Witnesses: the hypotheses of each obligation are met -/

/-- A running state at 0x0100 with bytes at the four corners of memory. -/
def sample : State :=
  start ⟨0x0400, 0x0400, 0xBEEF, 0xFFFF, 0x0004, 0x0005, 0x0017, 0⟩ 0x0100
    [(0x0000, 0xAB), (0x0100, 0x39), (0x0101, 0xC0), (0x0400, 0x33), (0xFFFE, 0x00), (0xFFFF, 0x3C)]

theorem witness_DecodeOfEncode : Instr.wellFormed (.bl 0x800) = true ∧ Instr.wellFormed (.str 0x3F .byte .r7 .r0) = true := by
  decide

/-- Both ends of each offset field. -/
theorem witness_DecodedInstructionsAreWellFormed : Instr.wellFormed (.ldr 0x40 .word .r0 .r7) = true ∧
    (offsetField 11 (-2048) = some 0x800 ∧ branchTarget 0x0102 (0x800 : BitVec 12) = 0xF102) ∧
    (offsetField 9 511 = some 0x1FF ∧ branchTarget 0xFFFF (0x1FF : BitVec 10) = 0x03FD) ∧
    (offsetField 6 (-64) = some 0x40 ∧ relativeAddress 0x0000 0x40 = 0xFFC0) := by decide

/-- Each class of words at both ends of its range, and each branch of the cleared-bit rule. -/
theorem witness_classes_and_cleared_bits :
    [0x0000, 0x0FFF, 0x1000, 0x1FFF, 0x2000, 0x3FFF, 0x4000, 0x5FFF, 0x6000, 0x7FFF, 0x8000, 0xBFFF, 0xC000, 0xFFFF].map
      classify =
    [.moveHigh, .moveHigh, .branchAndLink, .branchAndLink, .branch, .branch, .arithmetic, .arithmetic, .ldStMovlMovlz,
     .ldStMovlMovlz, .loadRelative, .loadRelative, .storeRelative, .storeRelative] ∧
    encode (decode 0x0FFF) = 0x07FF ∧ encode (decode 0x1FFF) = 0x1FFF ∧ encode (decode 0x6FFF) = 0x6F7F ∧
    encode (decode 0x7FFF) = 0x7FFF := by decide

theorem witness_IgnoredBitsDoNotMatter : (0x0FFF : Word).toNat < 0x1000 ∧ 0x6000 ≤ (0x6FFF : Word).toNat ∧
    (0x6FFF : Word).toNat < 0x7000 ∧ decode (0x0FFF ^^^ 0x0800) = decode 0x0FFF ∧
    decode (0x6FFF ^^^ 0x0080) = decode 0x6FFF := by decide

/-- A canonical memory that lists both ends of the address space: the hypothesis of ByteReadAfterByteWrite,
BusWritesStoreTheirBytesOnly and MixedWidthAccessesAgree. -/
theorem witness_canonical_memory : sample.mem.wf = true ∧
    busRead (busWrite sample.mem 0xFFFF .word 0xA55A) 0xFFFF .word = 0xA55A ∧
    busRead (busWrite sample.mem 0x0000 .byte 0xA55A) 0xFFFF .word = 0x5A3C := by decide

theorem witness_MemoryIsATotalFunctionOfTheAddress : Memory.wf [(0x0400, 0xEF)] = true ∧
    Memory.wf (Memory.writeAt [] 0x0400 0xEF) = true ∧
    ∀ a, Memory.readAt [(0x0400, 0xEF)] a = Memory.readAt (Memory.writeAt [] 0x0400 0xEF) a :=
  ⟨by decide, by decide, fun _ => rfl⟩

theorem witness_BranchTargetsKeepThePcParity : Instr.bge 0x1FF ∈ branchesInOrder.map (· 0x1FF) ∧
    ∃ t, exec (.bge 0x1FF) sample = .next t ∧ t.reg .r7 = 0x04FE := ⟨by decide, _, rfl, by decide⟩

/-- A target across the end of the address space, for each statement, with R6 = 0x0017 (C, Z, N and V set). -/
theorem witness_AssembledBranchReachesItsTarget : { sample with regs := sample.regs.set .r7 0 }.reg .r7 = 0xFFFE + 2 ∧
    Asm.Stmt.words 0xFFFE (.bl 0x0004) = some [0x1002] ∧ Asm.Stmt.words 0xFFFE (.call 0x0004) = some [0x1002] ∧
    Asm.Stmt.words 0xFFFE (.branch .ge 0x0004) = some [0x3402] ∧ Asm.Stmt.words 0xFFFE (.b 0x0004) = some [0x3C02] ∧
    condHolds Config.pswLayout .ge ({ sample with regs := sample.regs.set .r7 0 }.reg .r6) = true := by decide

/-- Both clauses about a slot's entry: a reserved slot and one that is not. -/
theorem witness_ArithmeticSlotsRunTheirTableEntry :
    (fun k : Fin 32 => k == 31) 31 = true ∧ (fun k : Fin 32 => k == 31) 0 = false := by decide

/-- Every pair of flags but the reserved one meets the hypothesis, with both address registers at a wrap. -/
theorem witness_IndexedLoadEffect : ((true && false) = false ∧ (false && true) = false ∧ (false && false) = false) ∧
    effect (.ld .post false true .word .r3 .r1) sample (fun t => (t.reg .r1, t.reg .r3)) = some (0xAB3C, 0x0001) ∧
    effect (.ld .pre true false .byte .r3 .r3) sample (fun t => t.reg .r3) = some 0x0000 := by decide

theorem witness_IndexedStoreEffect : (false && true) = false ∧ sample.mem.wf = true ∧
    effect (.st .post false true .word .r2 .r3) sample (fun t => (t.reg .r3, t.byteAt 0xFFFF, t.byteAt 0, t.byteAt 1)) =
      some (0x0001, 0xEF, 0xBE, 0x00) := by decide

theorem witness_ReservedIndexingIsANoOp : exec (.ld .pre true true .byte .r1 .r7) sample = .next sample ∧
    exec (.st .post true true .word .r7 .r1) sample = .next sample := ⟨rfl, rfl⟩

theorem witness_TwoMovesLoadAConstant : Reg.r6 ≠ .r7 ∧
    (effect (.movlz 0x34 .r6) sample (fun t => effect (.movh 0x12 .r6) t (fun u => u.reg .r6))) =
      some (some 0x1234) := by decide

theorem witness_RelativeStoreEffect : sample.mem.wf = true ∧
    effect (.str 0 .word .r2 .r3) sample (fun t => (t.byteAt 0xFFFF, t.byteAt 0)) = some (0xEF, 0xBE) := by decide

theorem witness_RegisterFrame : Reg.r5 ∉ writtenRegs (.ld .pre true false .byte .r1 .r2) ∧
    ∃ t, exec (.ld .pre true false .byte .r1 .r2) sample = .next t ∧ t.reg .r5 = 0x0005 := ⟨by decide, _, rfl, by decide⟩

/-- A storing form at a byte outside its store, and forms that store nothing. -/
theorem witness_MemoryFrame : sample.mem.wf = true ∧ storesAt (.str 0 .word .r2 .r3) sample 0x0001 = false ∧
    storesAt (.str 0 .word .r2 .r3) sample 0x0000 = true ∧ storesAt (.st .pre true true .word .r2 .r3) sample 0xFFFF = false ∧
    storesAt (.bl 0) sample 0xFFFF = false ∧ ∃ t, exec (.str 0 .word .r2 .r3) sample = .next t ∧ t.byteAt 0x0001 = 0 :=
  ⟨by decide, by decide, by decide, by decide, by decide, _, rfl, by decide⟩

theorem witness_HandlersChangeOnlyRegistersAndMemory : sample.mem.wf = true ∧
    ∃ t, exec (.a7 .constant .byte .r6 .r7) sample = .next t := ⟨by decide, _, rfl⟩

/-- The word at 0x0100 is `MOVH` written as bytes; another at 0xFFFE, the last address that is fetched. -/
theorem witness_StepRunsTheDecodedInstruction : sample.run = true ∧ sample.phase = .fetch ∧ sample.reg .r7 ≠ 0xFFFF ∧
    decodeBytes [sample.byteAt (sample.reg .r7), sample.byteAt (sample.reg .r7 + 1)] =
      .ok (.str 0 .word .r7 .r1, []) ∧ sample.dev = none ∧ sample.signals = [] ∧
    (∃ t, exec (.str 0 .word .r7 .r1) sample = .next t) ∧
    decodeBytes [sample.byteAt 0xFFFE, sample.byteAt 0xFFFF] = .ok (.bal 0, []) :=
  ⟨by decide, by decide, by decide, by decide, by decide, by decide, ⟨_, rfl⟩, by decide⟩

/-- The PC at 0xFFFF and at 0xFFFE: the two clauses about the fetch. -/
theorem witness_HaltAddressIsNeverRead : (start zeroRegs 0xFFFF []).reg .r7 = 0xFFFF ∧
    (start zeroRegs 0xFFFE []).reg .r7 = 0xFFFE ∧ (fetchPhase (start zeroRegs 0xFFFF [])).ir = none ∧
    (fetchPhase (start zeroRegs 0xFFFE [(0xFFFF, 0x3C)])).ir = some 0x3C00 := by decide

/-- The hypotheses of IdleCycleAtTheHaltAddress, and those of its clauses without a device and with one. -/
theorem witness_IdleCycleAtTheHaltAddress : (start zeroRegs 0xFFFF []).run = true ∧
    (start zeroRegs 0xFFFF []).phase = .fetch ∧ (start zeroRegs 0xFFFF []).reg .r7 = 0xFFFF ∧
    (start zeroRegs 0xFFFF []).dev = none ∧ { start zeroRegs 0xFFFF [] with dev := some 0 }.dev = some 0 := by decide

/-- A step from the top of the loop: running at an instruction, running at the halt address, and ended. -/
theorem witness_steps_from_the_top_of_the_loop :
    (sample.phase = .fetch ∧ ∃ t, step sample = .next t ∧ t.clk = 1 ∧ t.run = true) ∧
    (∃ t, step (start zeroRegs 0xFFFF []) = .next t ∧ t.clk = 0) ∧
    (∃ t, step { sample with run := false } = .next t ∧ t.clk = 0) ∧
    (∃ t, step { sample with signals := [true] } = .next t ∧ t.run = false) :=
  ⟨⟨by decide, _, rfl, by decide, by decide⟩, ⟨_, rfl, by decide⟩, ⟨_, rfl, by decide⟩, ⟨_, rfl, by decide⟩⟩

theorem witness_CancellationWaitsForTheCycle : sample.run = true ∧ sample.phase = .fetch := by decide

theorem witness_EndedRunNeverResumes : { sample with run := false }.run = false ∧
    { sample with run := false }.phase = .fetch ∧
    Host.Core.run Sys2Proof.core 3 { sample with run := false } = .next { sample with run := false } :=
  ⟨rfl, rfl, rfl⟩

/-- The hypotheses of DeviceHookFootprint, without a device and with one. -/
theorem witness_DeviceHookFootprint : sample.dev = none ∧ sample.mem.wf = true ∧ { sample with dev := some 0 }.dev = some 0 ∧
    { sample with dev := some 0 }.mem.wf = true := by decide

/-- Each clause of EngineNeverReadsThePsw: no device; a word in EXECUTE; ended, idle and running at the top of the loop. -/
theorem witness_EngineNeverReadsThePsw : sample.dev = none ∧ (fetchPhase sample).ir = some 0xC039 ∧
    (∃ t, exec (decode 0xC039) (decodePhase (fetchPhase sample)) = .next t) ∧ sample.phase = .fetch ∧ sample.run = true ∧
    sample.reg .r7 ≠ 0xFFFF ∧ { sample with run := false }.run = false ∧ (start zeroRegs 0xFFFF []).run = true ∧
    (start zeroRegs 0xFFFF []).reg .r7 = 0xFFFF :=
  ⟨by decide, by decide, ⟨_, rfl⟩, by decide, by decide, by decide, by decide, by decide, by decide⟩

/-- R2 = 0x1234 and the word `w` at `a`. -/
def storing (a w : Word) : State := start { zeroRegs with r2 := 0x1234 } a [(a, lowByte w), (a + 1, highByte w)]

/-- Each row of StoreIsSeenByTheNextFetch on the state before it, `STR R2, 0(PC)` and the four forms of `ST R2, PC`, the last
with the PC at 0xFFFE; every other premise is met there too. -/
theorem witness_StoreIsSeenByTheNextFetch :
    [(0x0100, 0xC017), (0x0100, 0x6817), (0x0100, 0x6C17), (0x0100, 0x6D17), (0xFFFE, 0x6E17)].map
      (fun p : Word × Word => let s := storing p.1 p.2
        (decode (s.byteAt (s.reg .r7 + 1) ++ s.byteAt (s.reg .r7)),
          s.mem.wf && s.ir.isNone && s.phase == .fetch && s.run && s.dev.isNone && s.reg .r7 != 0xFFFF)) =
    [(.str 0 .word .r2 .r7, true), (.st .post false false .word .r2 .r7, true), (.st .pre false false .word .r2 .r7, true),
     (.st .pre false true .word .r2 .r7, true), (.st .pre true false .word .r2 .r7, true)] := by decide

/-- The premises of StoreIsSeenByTheNextFetch's clause on any instruction, and of its clause on a device. -/
theorem witness_StoreIsSeenByTheNextFetch_any_instruction : sample.run = true ∧ sample.phase = .fetch ∧ sample.dev = none ∧
    sample.reg .r7 ≠ 0xFFFF ∧ decode (sample.byteAt (sample.reg .r7 + 1) ++ sample.byteAt (sample.reg .r7)) =
      .str 0 .word .r7 .r1 ∧ (∃ u, exec (.str 0 .word .r7 .r1) (decodePhase (fetchPhase sample)) = .next u) ∧
    { sample with dev := some 0 }.dev = some 0 :=
  ⟨by decide, by decide, by decide, by decide, by decide, ⟨_, rfl⟩, rfl⟩

/-- The vector of L2.7: the next fetch reads 0x1234; and the next fetch after an instruction that stores nothing. -/
theorem test_store_seen_by_the_next_fetch :
    (stateOf (step (storing 0x0100 0xC017))).map (fun t => (fetchPhase t).ir) = some (some 0x1234) ∧
    (stateOf (step (storing 0xFFFE 0x6E17))).map (fun t => (fetchPhase t).ir) = some (some 0x1234) ∧
    after zeroRegs 0x0100 0x3C00 [(0x0102, 0x04), (0x0103, 0x10)] (fun t => (fetchPhase t).ir) = some (some 0x1004) := by
  decide

/-- Both clauses of CycleIsItsPhasesInOrder. -/
theorem witness_CycleIsItsPhasesInOrder : sample.phase = .fetch ∧ sample.run = true ∧ sample.reg .r7 ≠ 0xFFFF ∧
    (start zeroRegs 0xFFFF []).phase = .fetch ∧ (start zeroRegs 0xFFFF []).run = true ∧
    (start zeroRegs 0xFFFF []).reg .r7 = 0xFFFF := by decide

theorem witness_EveryStepKeepsTheInvariant : sample.Inv ∧ ∃ t, step sample = .next t := ⟨⟨by decide, rfl, rfl⟩, _, rfl⟩

/-- A state in each phase but FETCH. -/
theorem witness_EveryCycleEndsAtTheTopOfTheLoop : (fetchPhase sample).mem.wf = true ∧ (fetchPhase sample).phase ≠ .fetch ∧
    (decodePhase (fetchPhase sample)).phase = .execute ∧ (fetchPhase (start zeroRegs 0xFFFF [])).phase = .handleDevices ∧
    ∃ t, step (fetchPhase sample) = .next t := ⟨by decide, by decide, by decide, by decide, _, rfl⟩

/-- An image that gives one byte twice: the later entry stands. -/
theorem witness_LaunchSuppliesTheStartOfARun :
    ([((0xFFFF : Word), (0x11 : Byte)), (0xFFFF, 0x22)].reverse.find? fun c => c.1 == 0xFFFF) = some (0xFFFF, 0x22) ∧
    (start zeroRegs 0 [(0xFFFF, 0x11), (0xFFFF, 0x22)]).byteAt 0xFFFF = 0x22 := by decide

/-- Each clause of InspectionOnlyWhilePaused: running, in the middle of a cycle, and paused. -/
theorem witness_InspectionOnlyWhilePaused : sample.run = true ∧ { fetchPhase sample with run := false }.phase ≠ .fetch ∧
    { sample with run := false }.run = false ∧ { sample with run := false }.phase = .fetch := by decide

end Sys2Proof.Tests
end

