-- ==== Sys2Proof/Proofs/Memory.lean ====
section
/-! PROOFS. The statements about the bus and the halt address (spec/20_memory.md). -/

namespace Sys2Proof.Machine

/-! ### What a bus read gives -/

/-- The byte after `M[a]`: the address wraps modulo 2^16 (R52). -/
theorem Memory.readAt_succ (m : Memory) (a : Word) : m.readAt (a + 1) = m.read ((a.toNat + 1) % 65536) := by
  rw [Memory.readAt, BitVec.toNat_add]
  rfl

theorem toNat_busRead_byte (m : Memory) (a : Word) : (busRead m a .byte).toNat = (m.readAt a).toNat :=
  toNat_zeroExtend _

theorem toNat_busRead_word (m : Memory) (a : Word) :
    (busRead m a .word).toNat = (m.readAt a).toNat + 256 * (m.readAt (a + 1)).toNat := by
  rw [busRead, toNat_joinBytes, Nat.add_comm]

/-- Settles O10, from the value of each width's read and the wrap of the second byte's address. -/
theorem busReadsAreLittleEndian : Obligations.BusReadsAreLittleEndian := by
  unfold Obligations.BusReadsAreLittleEndian
  intro m a
  refine ⟨toNat_busRead_byte m a, ?_⟩
  rw [toNat_busRead_word, Memory.readAt_succ, Memory.readAt]

/-! ### What a bus write leaves -/

/-- The bytes after a word write, the lower address first: the two addresses differ, so their order does not matter. -/
theorem readAt_busWrite_word_low_first {m : Memory} (h : m.wf = true) (a x v : Word) :
    (busWrite m a .word v).readAt x = if x = a then lowByte v else if x = a + 1 then highByte v else m.readAt x := by
  rw [readAt_busWrite_word h]
  by_cases hx : x = a
  · subst hx
    rw [if_neg (self_ne_succ x), if_pos rfl, if_pos rfl]
  · rw [if_neg hx, if_neg hx]

/-- Settles O11, from the bytes after a write of each width. -/
theorem busWritesStoreTheirBytesOnly : Obligations.BusWritesStoreTheirBytesOnly := by
  unfold Obligations.BusWritesStoreTheirBytesOnly
  intro m a x v hm
  exact ⟨readAt_busWrite_byte hm a x v, readAt_busWrite_word_low_first hm a x v⟩

/-! ### The halt address -/

theorem fetchPhase_ir (s : State) : (fetchPhase s).ir = fetchResult s.mem (s.reg .pc) := rfl

/-- At the halt address FETCH makes no bus access, so it passes any memory through (R59). -/
theorem fetchPhase_withMem_of_halt {s : State} (m : Memory) (h : s.reg .pc = Config.haltAddress) :
    fetchPhase { s with mem := m } = { fetchPhase s with mem := m } := by
  have hm : { s with mem := m }.reg .pc = Config.haltAddress := h
  rw [fetchPhase_halt hm, fetchPhase_halt h]
  rfl

/-- The fetched word, high byte first (R55, R122). -/
theorem fetchPhase_ir_of_ne_halt {s : State} (h : s.reg .pc ≠ Config.haltAddress) :
    (fetchPhase s).ir = some (s.byteAt (s.reg .pc + 1) ++ s.byteAt (s.reg .pc)) := by
  rw [fetchPhase_ir, fetchResult_ne_halt s.mem h]
  rfl

/-- Settles O30: FETCH at 0xFFFF reads no memory, and 0xFFFE is not the halt address, so its word is read whole. -/
theorem haltAddressIsNeverRead : Obligations.HaltAddressIsNeverRead := by
  unfold Obligations.HaltAddressIsNeverRead
  refine ⟨fun s m h => ⟨fetchPhase_withMem_of_halt m h, ?_⟩, fun s h => ?_⟩
  · have hpc : s.reg .pc = Config.haltAddress := h
    rw [fetchPhase_ir, hpc, fetchResult_halt]
  · have hne : s.reg .pc ≠ Config.haltAddress := by rw [h]; decide
    rw [fetchPhase_ir_of_ne_halt hne, h]
    rfl

end Sys2Proof.Machine
end

/-! PROOFS. The statements about the decoder's classes and formats (spec/30_encoding.md) and about the three moves that
take an immediate (spec/43_ld_st_movl_movlz.md, spec/44_move_high.md). -/

namespace Sys2Proof.Machine

/-! ### The operand codes are the tables in order -/

theorem registerAt_eq (b : BitVec 3) : registerAt b = regOfBits b := by
  revert b; decide

/-- The branch-condition table in order (R99). -/
theorem branchAt_eq (cond : BitVec 3) (off10 : BitVec 10) :
    branchAt cond off10 = branchInstr (condOfBits cond) off10 := by
  obtain ⟨⟨n, hn⟩⟩ := cond
  interval_cases n <;> rfl

/-- The arithmetic slots in order (R100). -/
theorem slotAt_toFin (op : BitVec 5) (rc : SrcKind) (wb : Width) (src dst : Reg) :
    slotAt op.toFin rc wb src dst = slotInstr op.toNat rc wb src dst := by
  obtain ⟨⟨n, hn⟩⟩ := op
  interval_cases n <;> rfl

theorem bitSet_eq (b : BitVec 1) : bitSet b = decide (b = 1) := by
  revert b; decide

theorem widthOfBit_eq (b : BitVec 1) : widthOfBit b = if b = 1 then .byte else .word := by
  revert b; decide

theorem srcKindOfBit_eq (b : BitVec 1) : srcKindOfBit b = if b = 1 then .constant else .register := by
  revert b; decide

theorem indexModeOfBit_eq (b : BitVec 1) : indexModeOfBit b = if b = 1 then .pre else .post := by
  revert b; decide

/-! ### The class of a word is that of its range -/

/-- A bound on a word that is a multiple of 2^12 is a bound on its top nibble. -/
theorem toNat_nibble_append_lt (hi : BitVec 4) (lo : BitVec 12) {bound : Nat} (h : bound % 4096 = 0) :
    (hi ++ lo).toNat < bound ↔ hi.toNat < bound / 4096 := by
  have := toNat_append_eq hi lo
  have := lo.isLt
  omega

/-- The tests of R82 read the top nibble only, and so do the bounds of the ranges. -/
theorem classify_eq_of_range (w : Word) : classify w =
    if w.toNat < 0x1000 then .moveHigh
    else if w.toNat < 0x2000 then .branchAndLink
    else if w.toNat < 0x4000 then .branch
    else if w.toNat < 0x6000 then .arithmetic
    else if w.toNat < 0x8000 then .ldStMovlMovlz
    else if w.toNat < 0xC000 then .loadRelative
    else .storeRelative := by
  obtain ⟨hi, lo, rfl⟩ := exists_append (n := 4) (m := 12) w
  simp (disch := decide) only [toNat_nibble_append_lt, Nat.reduceDiv]
  simp (disch := omega) only [classify, field, field_append_high, Nat.reduceSub]
  revert hi
  decide

/-- Settles O4: the class from the word's top nibble, each format from what the decoder reads of it. -/
theorem wordsDecodeByClassAndFormat : Obligations.WordsDecodeByClassAndFormat := by
  unfold Obligations.WordsDecodeByClassAndFormat
  simp only [registerAt_eq, branchAt_eq, slotAt_toFin, ← bitSet_eq, ← widthOfBit_eq, ← srcKindOfBit_eq,
    ← indexModeOfBit_eq]
  exact ⟨classify_eq_of_range, decode_moveHigh, decode_branchAndLink, decode_branch, decode_arithmetic, decode_load,
    decode_store, decode_moveLow, decode_moveLowZero, decode_loadRelative, decode_storeRelative⟩

/-! ### The bits in no field -/

/-- Inverting bits outside a field leaves the field. -/
theorem field_xor_of_field_eq_zero {w mask : Word} {lo n : Nat} (h : field mask lo n = 0) :
    field (w ^^^ mask) lo n = field w lo n := by
  unfold field at h ⊢
  rw [BitVec.extractLsb'_xor, h]
  exact BitVec.xor_zero

theorem classify_xor_bit11 (w : Word) : classify (w ^^^ 0x0800) = classify w := by
  simp (disch := decide) only [classify, field_xor_of_field_eq_zero]

theorem classify_xor_bit7 (w : Word) : classify (w ^^^ 0x0080) = classify w := by
  simp (disch := decide) only [classify, field_xor_of_field_eq_zero]

/-- No field of MOVH holds bit 11 (R103). -/
theorem decode_xor_bit11 {w : Word} (h : classify w = .moveHigh) : decode (w ^^^ 0x0800) = decode w := by
  simp (disch := decide) only [decode, classify_xor_bit11, h, field_xor_of_field_eq_zero]

/-- The sub-type field of LD and ST (R102): below 0x7000 bit 12 is 0. -/
theorem subType_of_range {w : Word} (hlo : 0x6000 ≤ w.toNat) (hhi : w.toNat < 0x7000) :
    field w 11 2 = 0 ∨ field w 11 2 = 1 := by
  have h : (field w 11 2).toNat = w.toNat / 2048 % 4 := by
    rw [field, BitVec.extractLsb'_toNat, Nat.shiftRight_eq_div_pow]
  bv_omega

/-- No field of LD and ST holds bit 7 (R103). -/
theorem decodeSubType_xor_bit7 {w : Word} (h : field w 11 2 = 0 ∨ field w 11 2 = 1) :
    decodeSubType (w ^^^ 0x0080) = decodeSubType w := by
  rcases h with h | h <;>
    simp (disch := decide) only [decodeSubType, field_xor_of_field_eq_zero, h, BitVec.reduceToNat]

theorem decode_xor_bit7 {w : Word} (hc : classify w = .ldStMovlMovlz) (h : field w 11 2 = 0 ∨ field w 11 2 = 1) :
    decode (w ^^^ 0x0080) = decode w := by
  simp only [decode, classify_xor_bit7, hc, decodeSubType_xor_bit7 h]

theorem encode_movh_bit11 (imm8 : Byte) (dst : Reg) : (encode (.movh imm8 dst)).getLsbD 11 = false := by
  simp only [encode, BitVec.getLsbD_append]
  simp

theorem indexedWord_bit7 (sub : BitVec 2) (prpo : IndexMode) (dec inc : Bool) (wb : Width) (src dst : Reg) :
    (indexedWord sub prpo dec inc wb src dst).getLsbD 7 = false := by
  simp only [indexedWord, BitVec.getLsbD_append]
  simp

/-- Settles O6: neither bit is in a field that the decoder reads, and the encoder writes a 0 in its place. -/
theorem ignoredBitsDoNotMatter : Obligations.IgnoredBitsDoNotMatter := by
  unfold Obligations.IgnoredBitsDoNotMatter
  refine ⟨fun w h => ?_, fun w hlo hhi => ?_, encode_movh_bit11, fun prpo dec inc wb src dst =>
    ⟨indexedWord_bit7 _ prpo dec inc wb src dst, indexedWord_bit7 _ prpo dec inc wb src dst⟩⟩
  · have hc : classify w = .moveHigh := by rw [classify_eq_of_range, if_pos h]
    exact decode_xor_bit11 hc
  · have hc : classify w = .ldStMovlMovlz := by
      rw [classify_eq_of_range]
      simp (disch := omega) only [if_neg, if_pos]
    exact decode_xor_bit7 hc (subType_of_range hlo hhi)

/-! ### Moves of an immediate -/

/-- An instruction that writes one register: its destination, its frame and the clock's one count. -/
theorem setReg_effect {i : Instr} {s : State} {dst : Reg} {v : Word} (h : exec i s = .next (s.setReg dst v)) :
    ∃ t, exec i s = .next t ∧ t.reg dst = v ∧ SameRegsExcept [dst] s t ∧ t.mem = s.mem ∧ EngineUnchanged s t ∧
      CountedOnce i s t :=
  ⟨_, h, State.reg_setReg_same s dst v, setReg_sameRegs s dst v, rfl, setReg_engineUnchanged s dst v, countedOnce h rfl⟩

theorem exec_movl (imm8 : Byte) (dst : Reg) (s : State) :
    exec (.movl imm8 dst) s = .next (s.setReg dst ((s.reg dst).extractLsb' 8 8 ++ imm8)) := rfl

theorem exec_movlz (imm8 : Byte) (dst : Reg) (s : State) :
    exec (.movlz imm8 dst) s = .next (s.setReg dst (0#8 ++ imm8)) := rfl

theorem exec_movh (imm8 : Byte) (dst : Reg) (s : State) :
    exec (.movh imm8 dst) s = .next (s.setReg dst (imm8 ++ (s.reg dst).extractLsb' 0 8)) := rfl

/-- Settles O21: each move writes its destination and nothing else. -/
theorem immediateMovesPlaceTheirByte : Obligations.ImmediateMovesPlaceTheirByte := by
  unfold Obligations.ImmediateMovesPlaceTheirByte
  intro imm8 dst s
  refine ⟨?_, ?_, fun x => ?_, ?_⟩
  · exact (decode_moveLow imm8 (regBits dst)).trans (by rw [regOfBits_regBits])
  · exact (decode_moveLowZero imm8 (regBits dst)).trans (by rw [regOfBits_regBits])
  · rw [decode_moveHigh, regOfBits_regBits]
  · simp only [List.forall_mem_cons]
    exact ⟨setReg_effect (exec_movl imm8 dst s), setReg_effect (exec_movlz imm8 dst s),
      setReg_effect (exec_movh imm8 dst s), List.forall_mem_nil _⟩

end Sys2Proof.Machine

/-! PROOFS. The statement about FETCH (spec/40_fde_engine.md). -/

namespace Sys2Proof.Machine

/-! ### What FETCH leaves, whatever the read gives -/

@[simp] theorem fetchPhase_mem (s : State) : (fetchPhase s).mem = s.mem := rfl

@[simp] theorem fetchPhase_clk (s : State) : (fetchPhase s).clk = s.clk := rfl

/-- FETCH sets the PC on no condition (R123): its registers are those after that one write. -/
@[simp] theorem fetchPhase_regs (s : State) : (fetchPhase s).regs = s.regs.set .pc (s.reg .pc + 2) := rfl

theorem fetchPhase_pc (s : State) : (fetchPhase s).reg .pc = s.reg .pc + 2 := by
  rw [State.reg, fetchPhase_regs, RegFile.get_set_same]

theorem fetchPhase_sameRegs (s : State) : SameRegsExcept [.pc] s (fetchPhase s) :=
  setReg_sameRegs s .pc (s.reg .pc + 2)

/-! ### What the outcome of the read decides -/

/-- The sentinel at the halt address, and nowhere else (R122). -/
theorem fetchPhase_ir_eq_ite (s : State) :
    (fetchPhase s).ir =
      if s.reg .pc = Config.haltAddress then none else some (s.byteAt (s.reg .pc + 1) ++ s.byteAt (s.reg .pc)) := by
  split
  case isTrue h => rw [fetchPhase_halt h, State.setPhase_ir, State.setReg_ir, State.setIr_ir]
  case isFalse h => exact fetchPhase_ir_of_ne_halt h

/-- An idle cycle skips DECODE and EXECUTE (R124). -/
theorem fetchPhase_phase_eq_ite (s : State) :
    (fetchPhase s).phase = if s.reg .pc = Config.haltAddress then .handleDevices else .decode := by
  split
  case isTrue h => rw [fetchPhase_halt h, State.setPhase_phase]
  case isFalse h => rw [fetchPhase_word h, State.setPhase_phase]

/-- Settles O29: the PC's advance and the frame hold on no condition; only `ir` and the next phase tell the halt address
from the others. -/
theorem fetchAdvancesThePc : Obligations.FetchAdvancesThePc := by
  unfold Obligations.FetchAdvancesThePc
  exact fun s => ⟨fetchPhase_pc s, fetchPhase_sameRegs s, fetchPhase_mem s, fetchPhase_clk s, fetchPhase_ir_eq_ite s,
    fetchPhase_phase_eq_ite s⟩

end Sys2Proof.Machine

/-! PROOFS. The statements about BL and the conditional branches (spec/41_branch.md). -/

namespace Sys2Proof.Machine

/-! ### BL -/

theorem exec_bl (off12 : BitVec 12) (s : State) :
    exec (.bl off12) s = .next ((s.setReg .lr (s.reg .pc)).setReg .pc (branchTarget (s.reg .pc) off12)) := rfl

/-- Two register writes change at most the two registers written. -/
theorem setReg_setReg_sameRegs (s : State) (r q : Reg) (v w : Word) :
    SameRegsExcept [r, q] s ((s.setReg r v).setReg q w) := by
  intro p hp
  simp only [List.mem_cons, List.not_mem_nil, or_false, not_or] at hp
  obtain ⟨hr, hq⟩ := hp
  rw [State.reg_setReg_ne _ w hq, State.reg_setReg_ne s v hr]

/-- Settles O13: BL is two register writes, the link and then the target of the old PC (R150). -/
theorem branchAndLinkEffect : Obligations.BranchAndLinkEffect := by
  unfold Obligations.BranchAndLinkEffect
  intro off12 s
  refine ⟨decode_branchAndLink off12, _, exec_bl off12 s, ?link, ?target, setReg_setReg_sameRegs s _ _ _ _, rfl,
    (setReg_engineUnchanged ..).trans (setReg_engineUnchanged ..), countedOnce (exec_bl off12 s) rfl⟩
  case link => rw [State.reg_setReg_ne _ _ (by decide), State.reg_setReg_same]
  case target => exact State.reg_setReg_same ..

/-! ### The eight conditional branches -/

/-- Every entry of the branch-condition table runs the common rule (R99, R151). -/
theorem exec_branchInstr (c : Cond) (off10 : BitVec 10) (s : State) :
    exec (branchInstr c off10) s = .next (branchIf c off10 s) := by
  cases c <;> rfl

/-- BGE's predicate, N xor V = 0, says that the two flags agree (R157). -/
theorem condHolds_ge (l : PswLayout) (psw : Word) :
    condHolds l .ge psw = (psw.getLsbD l.n == psw.getLsbD l.v) :=
  Bool.not_not _

/-- A branch word's whole effect, for the condition `c` that its field selects and the value `holds` of that condition. -/
theorem branchInstr_effect {cond : BitVec 3} {c : Cond} {holds : Bool} {s : State} (off10 : BitVec 10)
    (hc : condOfBits cond = c) (hh : condHolds Config.pswLayout c (s.reg .psw) = holds) :
    decode (0b001#3 ++ cond ++ off10) = branchInstr c off10 ∧
    ∃ t, exec (branchInstr c off10) s = .next t ∧
      t = (if holds = true then s.setReg .pc (branchTarget (s.reg .pc) off10) else s) ∧
      CountedOnce (branchInstr c off10) s t := by
  have he := exec_branchInstr c off10 s
  refine ⟨by rw [decode_branch, hc], branchIf c off10 s, he, ?_, countedOnce he (branchIf_engineUnchanged c off10 s).clk⟩
  rw [branchIf, hh]

/-- Settles O14: one row of the branch-condition table each, and its predicate at the flags' places (R31, R152 to R159). -/
theorem conditionalBranchesFollowThePsw : Obligations.ConditionalBranchesFollowThePsw := by
  unfold Obligations.ConditionalBranchesFollowThePsw
  intro off10 s c z n v taken
  simp only [List.forall_mem_cons]
  exact ⟨branchInstr_effect (c := .eq) off10 rfl rfl, branchInstr_effect (c := .ne) off10 rfl rfl,
    branchInstr_effect (c := .cs) off10 rfl rfl, branchInstr_effect (c := .cc) off10 rfl rfl,
    branchInstr_effect (c := .neg) off10 rfl rfl, branchInstr_effect (c := .ge) off10 rfl (condHolds_ge ..),
    branchInstr_effect (c := .lt) off10 rfl rfl, branchInstr_effect (c := .al) off10 rfl rfl, List.forall_mem_nil _⟩

end Sys2Proof.Machine

/-! PROOFS. The statement about the arithmetic dispatch table (spec/42_arithmetic.md). -/

namespace Sys2Proof.Machine

/-! ### What an entry of the table gives -/

section
variable {reserved : Fin 32 → Bool} {k : Fin 32}
  (table : Fin 32 → ArithFields → RegFile → (Word → Byte) → HandlerEffect) (f : ArithFields) (s : State)

/-- A reserved slot holds the no-op handler (R101, R172). -/
theorem slotEntry_of_reserved (h : reserved k = true) : slotEntry reserved table k f s = s := by
  rw [slotEntry, if_pos h, noop]

/-- Any other slot holds the table's handler (R170, R171). -/
theorem slotEntry_of_not_reserved (h : reserved k = false) :
    slotEntry reserved table k f s = s.applyHandler (table k f s.regs s.byteAt) := by
  rw [slotEntry, h]
  rfl

end

theorem byteAt_applyHandler (s : State) (e : HandlerEffect) (a : Word) : (s.applyHandler e).byteAt a = e.mem a :=
  Memory.readAt_ofContents e.mem a

theorem wf_applyHandler (s : State) (e : HandlerEffect) : (s.applyHandler e).mem.wf = true :=
  Memory.wf_ofContents e.mem

/-! ### The instruction of each slot -/

section
variable (k : Fin 32) (rc : SrcKind) (wb : Width) (src dst : Reg)

/-- An arithmetic word selects the instruction of its slot (R87, R100). -/
theorem decode_slot_word :
    decode (0b010#3 ++ BitVec.ofFin (w := 5) k ++ srcKindBit rc ++ widthBit wb ++ regBits src ++ regBits dst) =
      slotAt k rc wb src dst :=
  (Laws.RoundTrip.of_arithWord (BitVec.ofFin k) rc wb src dst).trans (slotAt_toFin (BitVec.ofFin k) rc wb src dst).symm

/-- Each of the 32 instructions runs the entry of its own slot (R170, R173 to R204). -/
theorem exec_slotAt (s : State) : exec (slotAt k rc wb src dst) s = .next (runSlot k rc wb src dst s) := by
  fin_cases k <;> rfl

end

/-- Settles O17: each slot's instruction runs its own entry, and an entry is the no-op handler or the table's. -/
theorem arithmeticSlotsRunTheirTableEntry : Obligations.ArithmeticSlotsRunTheirTableEntry := by
  unfold Obligations.ArithmeticSlotsRunTheirTableEntry
  refine ⟨fun k rc wb src dst s => ?dispatch, fun reserved table k f s => ⟨fun h => ?reserved, fun h => ?handler, ?engine⟩⟩
  case dispatch =>
    have hexec := exec_slotAt k rc wb src dst s
    have hclk : (runSlot k rc wb src dst s).clk = s.clk := (slotEntry_engineUnchanged ..).clk
    exact ⟨decode_slot_word k rc wb src dst, _, hexec, rfl, countedOnce hexec hclk⟩
  case reserved => exact slotEntry_of_reserved table f s h
  case handler =>
    rw [slotEntry_of_not_reserved table f s h]
    exact ⟨rfl, byteAt_applyHandler s _, wf_applyHandler s _⟩
  case engine => exact slotEntry_engineUnchanged reserved table k f s

end Sys2Proof.Machine

/-! PROOFS. The statements about LD and ST, the reserved combination included (spec/43_ld_st_movl_movlz.md). -/

namespace Sys2Proof.Machine

/-! ### The address and the value read, case by case -/

/-- `delta` of R210; `0 - size` is the negated size modulo 2^16 (R28). -/
theorem indexDelta_eq_ite (dec inc : Bool) (w : Width) :
    indexDelta dec inc w =
      if inc = true then if w = .byte then 1 else 2
      else if dec = true then 0 - (if w = .byte then 1 else 2) else 0 := by
  simp only [indexDelta, stepSize_eq, BitVec.ofNat_eq_ofNat, BitVec.zero_sub]

theorem indexedAddress_eq_ite (prpo : IndexMode) (dec inc : Bool) (w : Width) (base : Word) :
    indexedAddress prpo dec inc w base = if prpo = .pre then base + indexDelta dec inc w else base := by
  cases prpo <;> rfl

theorem load_eq_ite (s : State) (a : Word) (w : Width) :
    s.load a w = if w = .byte then (s.byteAt a).setWidth 16 else s.byteAt (a + 1) ++ s.byteAt a := by
  cases w
  case word => exact load_word s a
  case byte => exact load_byte s a

section
variable (prpo : IndexMode) (dec inc : Bool) (wb : Width) (src dst : Reg)

/-! ### The words of LD and ST (R89), whatever the bit in no field holds (R103) -/

theorem decode_ld_word (x : BitVec 1) :
    decode (0b01100#5 ++ indexModeBit prpo ++ flagBit dec ++ flagBit inc ++ x ++ widthBit wb ++ regBits src ++
      regBits dst) = .ld prpo dec inc wb src dst :=
  (decode_load ..).trans (by simp only [indexModeOfBit_indexModeBit, bitSet_flagBit, widthOfBit_widthBit,
    regOfBits_regBits])

theorem decode_st_word (x : BitVec 1) :
    decode (0b01101#5 ++ indexModeBit prpo ++ flagBit dec ++ flagBit inc ++ x ++ widthBit wb ++ regBits src ++
      regBits dst) = .st prpo dec inc wb src dst :=
  (decode_store ..).trans (by simp only [indexModeOfBit_indexModeBit, bitSet_flagBit, widthOfBit_widthBit,
    regOfBits_regBits])

/-! ### What LD and ST do outside the reserved combination, and in it -/

/-- LD reads from the old state and writes its destination last (R211). -/
theorem exec_ld_of_not_reserved (s : State) (h : (dec && inc) = false) :
    exec (.ld prpo dec inc wb src dst) s =
      .next ((updateAddressReg s src dec inc wb).setReg dst
        (s.load (indexedAddress prpo dec inc wb (s.reg src)) wb)) := by
  rw [exec, execLd, reservedIndexing, h]
  rfl

/-- ST takes both the value and the address from the old registers (R212). -/
theorem exec_st_of_not_reserved (s : State) (h : (dec && inc) = false) :
    exec (.st prpo dec inc wb src dst) s =
      .next ((updateAddressReg s dst dec inc wb).store (indexedAddress prpo dec inc wb (s.reg dst)) wb
        (s.reg src)) := by
  rw [exec, execSt, reservedIndexing, h]
  rfl

theorem exec_ld_reserved (s : State) : exec (.ld prpo true true wb src dst) s = .next s := rfl

theorem exec_st_reserved (s : State) : exec (.st prpo true true wb src dst) s = .next s := rfl

end

/-- Settles O18: LD is two register writes, the address register's update and then the destination's, of a value read
from the old state (R211). -/
theorem indexedLoadEffect : Obligations.IndexedLoadEffect := by
  unfold Obligations.IndexedLoadEffect
  intro prpo dec inc wb src dst s hres size delta ea
  have hdelta : indexDelta dec inc wb = delta := indexDelta_eq_ite dec inc wb
  have hea : indexedAddress prpo dec inc wb (s.reg src) = ea := by rw [indexedAddress_eq_ite, hdelta]
  have hexec := exec_ld_of_not_reserved prpo dec inc wb src dst s hres
  refine ⟨decode_ld_word prpo dec inc wb src dst, _, hexec, ?loaded, fun hne => ?address,
    setReg_setReg_sameRegs s src dst _ _, rfl,
    (updateAddressReg_engineUnchanged ..).trans (setReg_engineUnchanged ..), countedOnce hexec rfl⟩
  case loaded => rw [State.reg_setReg_same, hea, load_eq_ite]
  case address => rw [State.reg_setReg_ne _ _ hne, reg_updateAddressReg_same, hdelta]

/-- Settles O19: ST is the address register's update and a store, whose value and address are of the old state (R212). -/
theorem indexedStoreEffect : Obligations.IndexedStoreEffect := by
  unfold Obligations.IndexedStoreEffect
  intro prpo dec inc wb src dst s hres size delta ea
  have hdelta : indexDelta dec inc wb = delta := indexDelta_eq_ite dec inc wb
  have hea : indexedAddress prpo dec inc wb (s.reg dst) = ea := by rw [indexedAddress_eq_ite, hdelta]
  have hexec := exec_st_of_not_reserved prpo dec inc wb src dst s hres
  refine ⟨decode_st_word prpo dec inc wb src dst, _, hexec, ?address, setReg_sameRegs s dst _,
    (updateAddressReg_engineUnchanged ..).trans (store_engineUnchanged ..), countedOnce hexec rfl,
    fun hwf a => ?bytes⟩
  case address => rw [State.reg_store, reg_updateAddressReg_same, hdelta]
  case bytes =>
    have hwf' : (updateAddressReg s dst dec inc wb).mem.wf = true := by rw [updateAddressReg_mem, hwf]
    rw [byteAt_store hwf', hea]
    rfl

/-- Settles O20: both reserved combinations run the no-op handler (R213). -/
theorem reservedIndexingIsANoOp : Obligations.ReservedIndexingIsANoOp := by
  unfold Obligations.ReservedIndexingIsANoOp
  intro prpo wb src dst s i hi
  have hexec : exec i s = .next s := by
    rcases hi with rfl | rfl
    · exact exec_ld_reserved prpo wb src dst s
    · exact exec_st_reserved prpo wb src dst s
  exact ⟨s, hexec, rfl, countedOnce hexec rfl⟩

end Sys2Proof.Machine

/-! PROOFS. The statements about LDR and STR (spec/45_relative.md). -/

namespace Sys2Proof.Machine

section
variable (off7 : BitVec 7) (wb : Width) (src dst : Reg)

/-! ### The words of LDR and STR (R91): the encoder's own, since every bit is in a field -/

theorem decode_ldr_word :
    decode (0b10#2 ++ off7 ++ widthBit wb ++ regBits src ++ regBits dst) = .ldr off7 wb src dst :=
  Laws.RoundTrip.ldr off7 wb src dst rfl

theorem decode_str_word :
    decode (0b11#2 ++ off7 ++ widthBit wb ++ regBits src ++ regBits dst) = .str off7 wb src dst :=
  Laws.RoundTrip.str off7 wb src dst rfl

/-! ### What LDR and STR do: the address is of the old base and the signed byte displacement (R252) -/

theorem exec_ldr (s : State) :
    exec (.ldr off7 wb src dst) s = .next (s.setReg dst (s.load (s.reg src + off7.signExtend 16) wb)) := rfl

theorem exec_str (s : State) :
    exec (.str off7 wb src dst) s = .next (s.store (s.reg dst + off7.signExtend 16) wb (s.reg src)) := rfl

end

/-- Settles O23: LDR is one register write, of a value read from the old state (R250). -/
theorem relativeLoadEffect : Obligations.RelativeLoadEffect := by
  unfold Obligations.RelativeLoadEffect
  intro off7 wb src dst s ea
  have hexec := exec_ldr off7 wb src dst s
  rw [load_eq_ite] at hexec
  exact ⟨decode_ldr_word off7 wb src dst, setReg_effect hexec⟩

/-- Settles O24: STR is one store, of the value register's bytes (R251). -/
theorem relativeStoreEffect : Obligations.RelativeStoreEffect := by
  unfold Obligations.RelativeStoreEffect
  intro off7 wb src dst s ea
  have hexec := exec_str off7 wb src dst s
  exact ⟨decode_str_word off7 wb src dst, _, hexec, rfl, store_engineUnchanged s ea wb (s.reg src),
    countedOnce hexec rfl, fun hwf a => byteAt_store hwf ea a wb (s.reg src)⟩

end Sys2Proof.Machine

/-! PROOFS. The round trips between words and instructions, and the opcode table (spec/30_encoding.md). -/

namespace Sys2Proof.Machine

/-! ### Decoding what was encoded -/

/-- The 48 rows, each by its own round trip. -/
theorem decode_encode (i : Instr) : decode (encode i) = i :=
  match i with
  | .movh .. => Laws.RoundTrip.movh _ _ rfl
  | .bl .. => Laws.RoundTrip.bl _ rfl
  | .beq .. => Laws.RoundTrip.beq _ rfl
  | .bne .. => Laws.RoundTrip.bne _ rfl
  | .bc .. => Laws.RoundTrip.bc _ rfl
  | .bnc .. => Laws.RoundTrip.bnc _ rfl
  | .bn .. => Laws.RoundTrip.bn _ rfl
  | .bge .. => Laws.RoundTrip.bge _ rfl
  | .blt .. => Laws.RoundTrip.blt _ rfl
  | .bal .. => Laws.RoundTrip.bal _ rfl
  | .a0 .. => Laws.RoundTrip.a0 _ _ _ _ rfl
  | .a1 .. => Laws.RoundTrip.a1 _ _ _ _ rfl
  | .a2 .. => Laws.RoundTrip.a2 _ _ _ _ rfl
  | .a3 .. => Laws.RoundTrip.a3 _ _ _ _ rfl
  | .a4 .. => Laws.RoundTrip.a4 _ _ _ _ rfl
  | .a5 .. => Laws.RoundTrip.a5 _ _ _ _ rfl
  | .a6 .. => Laws.RoundTrip.a6 _ _ _ _ rfl
  | .a7 .. => Laws.RoundTrip.a7 _ _ _ _ rfl
  | .a8 .. => Laws.RoundTrip.a8 _ _ _ _ rfl
  | .a9 .. => Laws.RoundTrip.a9 _ _ _ _ rfl
  | .a10 .. => Laws.RoundTrip.a10 _ _ _ _ rfl
  | .a11 .. => Laws.RoundTrip.a11 _ _ _ _ rfl
  | .a12 .. => Laws.RoundTrip.a12 _ _ _ _ rfl
  | .a13 .. => Laws.RoundTrip.a13 _ _ _ _ rfl
  | .a14 .. => Laws.RoundTrip.a14 _ _ _ _ rfl
  | .a15 .. => Laws.RoundTrip.a15 _ _ _ _ rfl
  | .a16 .. => Laws.RoundTrip.a16 _ _ _ _ rfl
  | .a17 .. => Laws.RoundTrip.a17 _ _ _ _ rfl
  | .a18 .. => Laws.RoundTrip.a18 _ _ _ _ rfl
  | .a19 .. => Laws.RoundTrip.a19 _ _ _ _ rfl
  | .a20 .. => Laws.RoundTrip.a20 _ _ _ _ rfl
  | .a21 .. => Laws.RoundTrip.a21 _ _ _ _ rfl
  | .a22 .. => Laws.RoundTrip.a22 _ _ _ _ rfl
  | .a23 .. => Laws.RoundTrip.a23 _ _ _ _ rfl
  | .a24 .. => Laws.RoundTrip.a24 _ _ _ _ rfl
  | .a25 .. => Laws.RoundTrip.a25 _ _ _ _ rfl
  | .a26 .. => Laws.RoundTrip.a26 _ _ _ _ rfl
  | .a27 .. => Laws.RoundTrip.a27 _ _ _ _ rfl
  | .a28 .. => Laws.RoundTrip.a28 _ _ _ _ rfl
  | .a29 .. => Laws.RoundTrip.a29 _ _ _ _ rfl
  | .a30 .. => Laws.RoundTrip.a30 _ _ _ _ rfl
  | .a31 .. => Laws.RoundTrip.a31 _ _ _ _ rfl
  | .ld .. => Laws.RoundTrip.ld _ _ _ _ _ _ rfl
  | .st .. => Laws.RoundTrip.st _ _ _ _ _ _ rfl
  | .movl .. => Laws.RoundTrip.movl _ _ rfl
  | .movlz .. => Laws.RoundTrip.movlz _ _ rfl
  | .ldr .. => Laws.RoundTrip.ldr _ _ _ _ rfl
  | .str .. => Laws.RoundTrip.str _ _ _ _ rfl

/-- Settles O1: every term of `Instr` is well-formed, and the round trip holds of each row. -/
theorem decodeOfEncode : Obligations.DecodeOfEncode := by
  unfold Obligations.DecodeOfEncode
  exact fun i _ => decode_encode i

/-- A proof about every instruction is one about every family: an instruction is the decoding of its own word, and
`word_induction` lists the formats of the words. -/
theorem instr_induction {P : Instr → Prop}
    (movh : ∀ imm8 dst, P (.movh imm8 dst))
    (bl : ∀ off12, P (.bl off12))
    (branch : ∀ c off10, P (branchInstr c off10))
    (slot : ∀ k rc wb src dst, P (slotAt k rc wb src dst))
    (ld : ∀ prpo dec inc wb src dst, P (.ld prpo dec inc wb src dst))
    (st : ∀ prpo dec inc wb src dst, P (.st prpo dec inc wb src dst))
    (movl : ∀ imm8 dst, P (.movl imm8 dst))
    (movlz : ∀ imm8 dst, P (.movlz imm8 dst))
    (ldr : ∀ off7 wb src dst, P (.ldr off7 wb src dst))
    (str : ∀ off7 wb src dst, P (.str off7 wb src dst)) (i : Instr) : P i := by
  rw [← decode_encode i]
  induction encode i using word_induction with
  | moveHigh x imm8 dst => rw [decode_moveHigh]; exact movh ..
  | branchAndLink off12 => rw [decode_branchAndLink]; exact bl ..
  | branch cond off10 => rw [decode_branch]; exact branch ..
  | arithmetic op rc wb src dst => rw [decode_arithmetic, ← slotAt_toFin]; exact slot ..
  | load prpo dec inc x wb src dst => rw [decode_load]; exact ld ..
  | store prpo dec inc x wb src dst => rw [decode_store]; exact st ..
  | moveLow imm8 dst => rw [decode_moveLow]; exact movl ..
  | moveLowZero imm8 dst => rw [decode_moveLowZero]; exact movlz ..
  | loadRelative off7 wb src dst => rw [decode_loadRelative]; exact ldr ..
  | storeRelative off7 wb src dst => rw [decode_storeRelative]; exact str ..

/-! ### Encoding what was decoded -/

theorem toNat_topNibble (w : Word) : (field w 12 4).toNat = w.toNat / 4096 % 16 := by
  rw [field, BitVec.extractLsb'_toNat, Nat.shiftRight_eq_div_pow]

/-- The words of MOVH are those of top nibble 0. -/
theorem toNat_lt_0x1000_iff (w : Word) : w.toNat < 0x1000 ↔ field w 12 4 = 0 := by
  have h := toNat_topNibble w
  bv_omega

/-- The words of LD and ST are those of top nibble 6. -/
theorem toNat_ld_st_range_iff (w : Word) : (0x6000 ≤ w.toNat ∧ w.toNat < 0x7000) ↔ field w 12 4 = 6 := by
  have h := toNat_topNibble w
  bv_omega

/-- A word with the bits in no field cleared (R103), told by its top nibble. -/
def clearIgnoredBits (w : Word) : Word :=
  if field w 12 4 = 0 then w &&& 0xF7FF else if field w 12 4 = 6 then w &&& 0xFF7F else w

theorem clearIgnoredBits_moveHigh (x : BitVec 1) (imm8 : BitVec 8) (dst : BitVec 3) :
    clearIgnoredBits (0b0000#4 ++ x ++ imm8 ++ dst) = 0b0000#4 ++ 0#1 ++ imm8 ++ dst := by
  have hn : field (0b0000#4 ++ x ++ imm8 ++ dst) 12 4 = 0 := by
    simp (disch := omega) only [field, field_append_high, Nat.reduceSub]
    decide
  rw [clearIgnoredBits, if_pos hn]
  change (0b0000#4 ++ x ++ imm8 ++ dst) &&& (BitVec.allOnes 4 ++ 0#1 ++ BitVec.allOnes 8 ++ BitVec.allOnes 3) = _
  simp only [append_and_append, BitVec.and_allOnes, BitVec.and_zero]

/-- LD and ST share the mask: bit 7, and whatever the sub-type. -/
theorem clearIgnoredBits_indexed {sub : BitVec 2} (hs : sub = 0b00#2 ∨ sub = 0b01#2) (prpo dec inc x wb : BitVec 1)
    (src dst : BitVec 3) :
    clearIgnoredBits (0b011#3 ++ sub ++ prpo ++ dec ++ inc ++ x ++ wb ++ src ++ dst) =
      0b011#3 ++ sub ++ prpo ++ dec ++ inc ++ 0#1 ++ wb ++ src ++ dst := by
  have hn : field (0b011#3 ++ sub ++ prpo ++ dec ++ inc ++ x ++ wb ++ src ++ dst) 12 4 = 6 := by
    simp (disch := omega) only [field, field_append_high, Nat.reduceSub]
    revert sub; decide
  rw [clearIgnoredBits, hn, if_neg (by decide), if_pos rfl]
  change (0b011#3 ++ sub ++ prpo ++ dec ++ inc ++ x ++ wb ++ src ++ dst) &&&
    (BitVec.allOnes 3 ++ BitVec.allOnes 2 ++ BitVec.allOnes 1 ++ BitVec.allOnes 1 ++ BitVec.allOnes 1 ++ 0#1 ++
      BitVec.allOnes 1 ++ BitVec.allOnes 3 ++ BitVec.allOnes 3) = _
  simp only [append_and_append, BitVec.and_allOnes, BitVec.and_zero]

/-- MOVL and MOVLZ keep all their bits. -/
theorem clearIgnoredBits_moveLow {sub : BitVec 2} (hs : sub = 0b10#2 ∨ sub = 0b11#2) (imm8 : BitVec 8)
    (dst : BitVec 3) :
    clearIgnoredBits (0b011#3 ++ sub ++ imm8 ++ dst) = 0b011#3 ++ sub ++ imm8 ++ dst := by
  have hn : field (0b011#3 ++ sub ++ imm8 ++ dst) 12 4 = 7 := by
    simp (disch := omega) only [field, field_append_high, Nat.reduceSub]
    revert sub; decide
  rw [clearIgnoredBits, hn, if_neg (by decide), if_neg (by decide)]

/-- So does every word outside the classes of MOVH and of LD and ST. -/
theorem clearIgnoredBits_of_class {w : Word} {c : InstrClass} (h : classify w = c) (h0 : c ≠ .moveHigh)
    (h6 : c ≠ .ldStMovlMovlz) : clearIgnoredBits w = w := by
  rw [← h, classify_eq_of_range] at h0 h6
  rw [clearIgnoredBits, if_neg, if_neg]
  · rw [← toNat_ld_st_range_iff]
    intro hr
    exact h6 (by simp (disch := omega) only [if_neg, if_pos])
  · rw [← toNat_lt_0x1000_iff]
    intro hr
    exact h0 (if_pos hr)

/-- The encoder writes back what the decoder reads of each format, and a 0 for a bit that it does not read. -/
theorem encode_decode (w : Word) : encode (decode w) = clearIgnoredBits w := by
  induction w using word_induction with
  | moveHigh x imm8 dst => rw [decode_moveHigh, clearIgnoredBits_moveHigh, encode, regBits_regOfBits]
  | branchAndLink off12 =>
    rw [decode_branchAndLink, clearIgnoredBits_of_class (classify_branchAndLink off12) (by decide) (by decide), encode]
  | branch cond off10 =>
    rw [decode_branch, clearIgnoredBits_of_class (classify_branch cond off10) (by decide) (by decide),
      encode_branchInstr, branchWord, condBits_condOfBits]
  | arithmetic op rc wb src dst =>
    rw [decode_arithmetic, clearIgnoredBits_of_class (classify_arithmetic op rc wb src dst) (by decide) (by decide),
      encode_slotInstr, arithWord, srcKindBit_srcKindOfBit, widthBit_widthOfBit, regBits_regOfBits, regBits_regOfBits]
  | load prpo dec inc x wb src dst =>
    rw [decode_load, clearIgnoredBits_indexed (.inl rfl), encode, indexedWord, indexModeBit_indexModeOfBit,
      flagBit_bitSet, flagBit_bitSet, widthBit_widthOfBit, regBits_regOfBits, regBits_regOfBits]
  | store prpo dec inc x wb src dst =>
    rw [decode_store, clearIgnoredBits_indexed (.inr rfl), encode, indexedWord, indexModeBit_indexModeOfBit,
      flagBit_bitSet, flagBit_bitSet, widthBit_widthOfBit, regBits_regOfBits, regBits_regOfBits]
  | moveLow imm8 dst => rw [decode_moveLow, clearIgnoredBits_moveLow (.inl rfl), encode, regBits_regOfBits]
  | moveLowZero imm8 dst => rw [decode_moveLowZero, clearIgnoredBits_moveLow (.inr rfl), encode, regBits_regOfBits]
  | loadRelative off7 wb src dst =>
    rw [decode_loadRelative, clearIgnoredBits_of_class (classify_loadRelative off7 wb src dst) (by decide)
      (by decide), encode, widthBit_widthOfBit, regBits_regOfBits, regBits_regOfBits]
  | storeRelative off7 wb src dst =>
    rw [decode_storeRelative, clearIgnoredBits_of_class (classify_storeRelative off7 wb src dst) (by decide)
      (by decide), encode, widthBit_widthOfBit, regBits_regOfBits, regBits_regOfBits]

/-- Settles O2: the ranges of MOVH and of LD and ST are one top nibble each. -/
theorem encodeOfDecode : Obligations.EncodeOfDecode := by
  unfold Obligations.EncodeOfDecode
  intro w
  rw [encode_decode, clearIgnoredBits]
  simp only [toNat_lt_0x1000_iff, toNat_ld_st_range_iff]

/-! ### Offset fields -/

/-- The target of a field that the assembler fills with `off` (R92, R93). -/
theorem branchTarget_of_offsetField {n : Nat} {off : Int} {v : BitVec (n + 1)} (base : Word)
    (h : offsetField n off = some v) : branchTarget base v = base + BitVec.ofInt 16 (2 * off) := by
  rw [branchTarget_eq, offsetField_eq_some.mp h]

/-- The address of a field that the assembler fills with `off` (R94). -/
theorem relativeAddress_of_offsetField {off : Int} {v : BitVec 7} (base : Word) (h : offsetField 6 off = some v) :
    relativeAddress base v = base + BitVec.ofInt 16 off := by
  rw [relativeAddress_eq, offsetField_eq_some.mp h]

/-- Settles O3: decoding is onto because an instruction's own word decodes to it; a field of `n + 1` bits holds the
numbers from `-2^n` to `2^n - 1`. -/
theorem decodedInstructionsAreWellFormed : Obligations.DecodedInstructionsAreWellFormed := by
  unfold Obligations.DecodedInstructionsAreWellFormed
  refine ⟨fun _ => rfl, fun i _ => ⟨encode i, decode_encode i⟩, fun off => ?ranges, fun base off =>
    ⟨fun _ => branchTarget_of_offsetField base, fun _ => branchTarget_of_offsetField base,
      fun _ => relativeAddress_of_offsetField base⟩⟩
  case ranges =>
    simp only [offsetField_isSome]
    omega

/-! ### The opcode table -/

/-- The mnemonic of a branch is that of its condition. -/
theorem mnemonic_branchInstr (c : Cond) (off10 off10' : BitVec 10) :
    (branchInstr c off10).mnemonic = (branchInstr c off10').mnemonic := by
  cases c <;> rfl

/-- The mnemonic of an arithmetic instruction is that of its slot. -/
theorem mnemonic_slotInstr (k : Nat) (rc rc' : SrcKind) (wb wb' : Width) (src src' dst dst' : Reg) :
    (slotInstr k rc wb src dst).mnemonic = (slotInstr k rc' wb' src' dst').mnemonic := by
  unfold slotInstr
  split <;> rfl

/-- The mnemonic of LD, ST, MOVL and MOVLZ is that of the sub-type (R102). -/
theorem mnemonic_decodeSubType {w w' : Word} (h : field w 11 2 = field w' 11 2) :
    (decodeSubType w).mnemonic = (decodeSubType w').mnemonic := by
  unfold decodeSubType
  rw [h]
  split <;> rfl

/-- The low byte of a word holds operands only. -/
theorem mnemonic_decode_append (hi lo lo' : Byte) : (decode (hi ++ lo)).mnemonic = (decode (hi ++ lo')).mnemonic := by
  have hfield (k n : Nat) (h : 8 ≤ k) : field (hi ++ lo) k n = field (hi ++ lo') k n :=
    (field_append_high hi lo k n h).trans (field_append_high hi lo' k n h).symm
  have hc : classify (hi ++ lo) = classify (hi ++ lo') := by
    simp (disch := omega) only [classify, hfield]
  simp only [decode, hc]
  cases classify (hi ++ lo') with
  | branch => rw [hfield 10 3 (by omega)]; exact mnemonic_branchInstr ..
  | arithmetic => rw [hfield 8 5 (by omega)]; exact mnemonic_slotInstr ..
  | ldStMovlMovlz => exact mnemonic_decodeSubType (hfield 11 2 (by omega))
  | branchAndLink | moveHigh | loadRelative | storeRelative => rfl

/-- No row's mask has a bit in the low byte. -/
theorem lowByte_mask_of_mem_opcodeTable : ∀ row ∈ opcodeTable, field row.mask 0 8 = 0 := by
  decide

/-- So whether a row fits a word is told by the word's high byte. -/
theorem fits_append {row : OpcodeRow} (h : row ∈ opcodeTable) (hi lo lo' : Byte) :
    row.fits (hi ++ lo) = row.fits (hi ++ lo') := by
  have hm := lowByte_mask_of_mem_opcodeTable row h
  obtain ⟨mhi, mlo, hmask⟩ := exists_append (n := 8) (m := 8) row.mask
  rw [hmask, field, field_append_low _ _ _ _ (Nat.le_refl 8), field_whole] at hm
  subst hm
  have masked (lo : Byte) : (hi ++ lo) &&& row.mask = (hi &&& mhi) ++ 0#8 := by
    rw [hmask]
    exact (append_and_append hi mhi lo 0#8).trans (congrArg ((hi &&& mhi) ++ ·) BitVec.and_zero)
  rw [OpcodeRow.fits, OpcodeRow.fits, masked lo, masked lo']

/-- Each of the 256 high bytes has its one row. -/
theorem rows_of_highByte (hi : Byte) :
    (opcodeTable.filter fun row => row.fits (hi ++ 0#8)).map OpcodeRow.mnemonic = [(decode (hi ++ 0#8)).mnemonic] := by
  revert hi
  decide

/-- Settles O5: the masks and the mnemonic both read the high byte alone. -/
theorem oneOpcodeRowFitsEachWord : Obligations.OneOpcodeRowFitsEachWord := by
  unfold Obligations.OneOpcodeRowFitsEachWord
  intro w
  obtain ⟨hi, lo, rfl⟩ := exists_append (n := 8) (m := 8) w
  rw [mnemonic_decode_append hi lo 0#8, ← rows_of_highByte hi]
  exact congrArg _ (List.filter_congr fun row hrow => fits_append hrow hi lo 0#8)

/-- Settles O7, each word by running the decoder on it. -/
theorem sampleWordsDecode : Obligations.SampleWordsDecode := by
  unfold Obligations.SampleWordsDecode
  decide

end Sys2Proof.Machine

/-! PROOFS. The statements about memory's bytes and mixed-width access (spec/20_memory.md). -/

namespace Sys2Proof.Machine

/-- Settles O8, from the read after a write and the canonical form kept by one. -/
theorem byteReadAfterByteWrite : Obligations.ByteReadAfterByteWrite := by
  unfold Obligations.ByteReadAfterByteWrite
  exact fun m a x b hm => ⟨Memory.wf_writeAt hm a b, Memory.readAt_writeAt hm a x b⟩

/-- Settles O9: a function is the contents of its own canonical list, and a canonical list is told by its contents. -/
theorem memoryIsATotalFunctionOfTheAddress : Obligations.MemoryIsATotalFunctionOfTheAddress := by
  unfold Obligations.MemoryIsATotalFunctionOfTheAddress
  exact ⟨fun f => ⟨Memory.wf_ofContents f, Memory.readAt_ofContents f⟩, fun _ _ => Memory.ext_readAt⟩

/-! ### Mixed-width access (R56) -/

/-- Two byte writes at consecutive addresses are one word write, low byte first. -/
theorem writeAt_writeAt_succ (m : Memory) (a : Word) (low high : Byte) :
    (m.writeAt a low).writeAt (a + 1) high = busWrite m a .word (joinBytes high low) := by
  rw [busWrite, lowByte_joinBytes, highByte_joinBytes]

theorem busRead_byte_eq_and (m : Memory) (a : Word) : busRead m a .byte = busRead m a .word &&& 0x00FF := by
  apply BitVec.eq_of_toNat_eq
  rw [toNat_busRead_byte, BitVec.toNat_and, toNat_busRead_word, show (0x00FF : Word).toNat = 2 ^ 8 - 1 from rfl,
    Nat.and_two_pow_sub_one_eq_mod]
  have := (m.readAt a).isLt
  omega

theorem busRead_byte_succ_eq_shift (m : Memory) (a : Word) : busRead m (a + 1) .byte = busRead m a .word >>> 8 := by
  apply BitVec.eq_of_toNat_eq
  rw [toNat_busRead_byte, BitVec.toNat_ushiftRight, toNat_busRead_word, Nat.shiftRight_eq_div_pow]
  have := (m.readAt a).isLt
  omega

/-- A byte write at `a + 1` leaves the low byte of the word at `a`. -/
theorem busRead_word_busWrite_byte_succ {m : Memory} (h : m.wf = true) (a v : Word) :
    busRead (busWrite m (a + 1) .byte v) a .word = joinBytes (lowByte v) (lowByte (busRead m a .word)) := by
  simp only [busRead]
  rw [readAt_busWrite_byte h, readAt_busWrite_byte h, if_pos rfl, if_neg (self_ne_succ a), lowByte_joinBytes]

/-- Settles O12: a word access is its two byte accesses. -/
theorem mixedWidthAccessesAgree : Obligations.MixedWidthAccessesAgree := by
  unfold Obligations.MixedWidthAccessesAgree
  refine ⟨fun m a low high hm => ?_, fun m a => ⟨busRead_byte_eq_and m a, busRead_byte_succ_eq_shift m a⟩,
    fun m a v hm => busRead_word_busWrite_byte_succ hm a v⟩
  rw [writeAt_writeAt_succ, busRead_busWrite_word hm]
  rfl

end Sys2Proof.Machine

/-! PROOFS. The statements about the targets of BL and the branches, assembled ones included (spec/30_encoding.md,
spec/41_branch.md), and about a constant made of two moves (spec/43_ld_st_movl_movlz.md). -/

namespace Sys2Proof.Machine

/-! ### The parity of the PC -/

/-- The branches listed in order are those of the conditions. -/
theorem mem_branchesInOrder_map {i : Instr} {off10 : BitVec 10} (h : i ∈ branchesInOrder.map (· off10)) :
    ∃ c, i = branchInstr c off10 := by
  simp only [branchesInOrder, List.map_cons, List.map_nil, List.mem_cons, List.not_mem_nil, or_false] at h
  rcases h with h | h | h | h | h | h | h | h
  · exact ⟨.eq, h⟩
  · exact ⟨.ne, h⟩
  · exact ⟨.cs, h⟩
  · exact ⟨.cc, h⟩
  · exact ⟨.neg, h⟩
  · exact ⟨.ge, h⟩
  · exact ⟨.lt, h⟩
  · exact ⟨.al, h⟩

/-- Taken or not, a branch leaves bit 0 of the PC. -/
theorem branchIf_pc_bit_zero (c : Cond) (off10 : BitVec 10) (s : State) :
    ((branchIf c off10 s).reg .pc).getLsbD 0 = (s.reg .pc).getLsbD 0 := by
  unfold branchIf
  split
  · rw [State.reg_setReg_same, branchTarget_bit_zero]
  · rfl

/-- Settles O15: what BL and a taken branch write to the PC is an even distance from it. -/
theorem branchTargetsKeepThePcParity : Obligations.BranchTargetsKeepThePcParity := by
  unfold Obligations.BranchTargetsKeepThePcParity
  intro off12 off10 s t i hi ht
  rcases hi with rfl | hi
  · rw [exec_bl] at ht
    cases ht
    rw [State.reg_setReg_same, branchTarget_bit_zero]
  · obtain ⟨c, rfl⟩ := mem_branchesInOrder_map hi
    rw [exec_branchInstr] at ht
    cases ht
    exact branchIf_pc_bit_zero c off10 s

/-! ### Assembled branches -/

/-- A field that the assembler makes for a target leads there: the distance is even, so twice its half is the distance
(R108). -/
theorem branchTarget_of_branchField {n : Nat} {a target : Word} {v : BitVec (n + 1)}
    (h : Asm.branchField n a target = some v) : branchTarget (a + 2) v = target := by
  obtain ⟨off, hoff, hfield⟩ := Option.bind_eq_some_iff.mp h
  have heven : 2 * off = (target - (a + 2)).toInt := by
    simp only [Asm.wordOffset] at hoff
    split at hoff
    · cases hoff
      omega
    · cases hoff
  rw [branchTarget_of_offsetField _ hfield, heven, BitVec.ofInt_toInt, add_sub_cancel]

/-- The word of a one-instruction statement with a field to fill decodes to the instruction with that field. -/
theorem decode_of_assembled {α : Type} {field? : Option α} {f : α → Instr} {w : Word}
    (h : ((field?.map fun v => [f v]).map fun is => is.map encode) = some [w]) :
    ∃ v, field? = some v ∧ decode w = f v := by
  cases field? with
  | none => cases h
  | some v =>
    obtain rfl : encode (f v) = w := by simpa using h
    exact ⟨v, rfl, decode_encode (f v)⟩

/-- BL from `a`, with a field made for `target`: the link is `a + 2` and the PC is the target. -/
theorem exec_bl_of_branchField {a target : Word} {off12 : BitVec 12} {s : State} (hpc : s.reg .pc = a + 2)
    (h : Asm.branchField 11 a target = some off12) :
    ∃ t, exec (.bl off12) s = .next t ∧ t.reg .pc = target ∧ t.reg .lr = a + 2 := by
  refine ⟨_, exec_bl off12 s, ?_, ?_⟩
  · rw [State.reg_setReg_same, hpc, branchTarget_of_branchField h]
  · rw [State.reg_setReg_ne _ _ (by decide), State.reg_setReg_same, hpc]

/-- A branch from `a` whose condition holds, with a field made for `target`. -/
theorem exec_branchInstr_of_branchField {a target : Word} {off10 : BitVec 10} {c : Cond} {s : State}
    (hpc : s.reg .pc = a + 2) (h : Asm.branchField 9 a target = some off10)
    (hc : condHolds Config.pswLayout c (s.reg .psw) = true) :
    ∃ t, exec (branchInstr c off10) s = .next t ∧ t.reg .pc = target := by
  refine ⟨_, exec_branchInstr c off10 s, ?_⟩
  rw [branchIf, if_pos hc, State.reg_setReg_same, hpc, branchTarget_of_branchField h]

/-- Settles O16: the word decodes to the instruction that the assembler chose, and its field leads to the target. -/
theorem assembledBranchReachesItsTarget : Obligations.AssembledBranchReachesItsTarget := by
  unfold Obligations.AssembledBranchReachesItsTarget
  intro a target w s hpc
  refine ⟨fun stmt hmem hw => ?bl, fun c hw hc => ?branch, fun hw => ?b⟩
  case bl =>
    have hbl : ((Asm.branchField 11 a target).map fun off12 => [Instr.bl off12]).map (fun is => is.map encode) =
        some [w] := by
      simp only [List.mem_cons, List.not_mem_nil, or_false] at hmem
      rcases hmem with rfl | rfl <;> exact hw
    obtain ⟨off12, hoff, hdec⟩ := decode_of_assembled hbl
    rw [hdec]
    exact exec_bl_of_branchField hpc hoff
  case branch =>
    obtain ⟨off10, hoff, hdec⟩ := decode_of_assembled hw
    rw [hdec]
    exact exec_branchInstr_of_branchField hpc hoff hc
  case b =>
    obtain ⟨off10, hoff, hdec⟩ := decode_of_assembled hw
    rw [hdec]
    exact exec_branchInstr_of_branchField (c := .al) hpc hoff rfl

/-! ### Two moves into one register -/

theorem SameRegsExcept.trans {rs : List Reg} {s t u : State} (h : SameRegsExcept rs s t) (k : SameRegsExcept rs t u) :
    SameRegsExcept rs s u :=
  fun r hr => (k r hr).trans (h r hr)

/-- Two writes of one register: the second value stays. -/
theorem setReg_twice_effect {i j : Instr} {s : State} {d : Reg} {x y v : Word} (hi : exec i s = .next (s.setReg d x))
    (hj : exec j (s.setReg d x) = .next ((s.setReg d x).setReg d y)) (hy : y = v) :
    ∃ t u, exec i s = .next t ∧ exec j t = .next u ∧ u.reg d = v ∧ SameRegsExcept [d] s u :=
  ⟨_, _, hi, hj, (State.reg_setReg_same _ d y).trans hy, (setReg_sameRegs s d x).trans (setReg_sameRegs _ d y)⟩

/-- Settles O22: the second move takes its other byte from the register that the first one wrote. -/
theorem twoMovesLoadAConstant : Obligations.TwoMovesLoadAConstant := by
  unfold Obligations.TwoMovesLoadAConstant
  intro v d s _
  have low (high : Byte) (s : State) : lowByte ((s.setReg d (joinBytes high (lowByte v))).reg d) = lowByte v := by
    rw [State.reg_setReg_same, lowByte_joinBytes]
  have high (low : Byte) (s : State) : highByte ((s.setReg d (joinBytes (highByte v) low)).reg d) = highByte v := by
    rw [State.reg_setReg_same, highByte_joinBytes]
  simp only [List.forall_mem_cons]
  refine ⟨setReg_twice_effect (exec_movlz _ d s) (exec_movh _ d _) ?movlzMovh,
    setReg_twice_effect (exec_movl _ d s) (exec_movh _ d _) ?movlMovh,
    setReg_twice_effect (exec_movh _ d s) (exec_movl _ d _) ?movhMovl, List.forall_mem_nil _⟩
  case movlzMovh => exact (congrArg (joinBytes (highByte v)) (low 0 s)).trans (joinBytes_high_low v)
  case movlMovh => exact (congrArg (joinBytes (highByte v)) (low (highByte (s.reg d)) s)).trans (joinBytes_high_low v)
  case movhMovl => exact (congrArg (joinBytes · (lowByte v)) (high (lowByte (s.reg d)) s)).trans (joinBytes_high_low v)

end Sys2Proof.Machine

/-! PROOFS. The frames over all instructions: what `exec` can change, said once for each family of instructions. -/

namespace Sys2Proof.Machine

/-- What an effect from `s` to `t` is confined to: registers among `rs`, bytes among those that `stored` tells, a memory
that stays canonical, and nothing of the engine's (R39). -/
structure Footprint (rs : List Reg) (stored : Word → Bool) (s t : State) : Prop where
  engine    : EngineUnchanged s t
  regs      : SameRegsExcept rs s t
  canonical : s.mem.wf = true → t.mem.wf = true
  bytes     : s.mem.wf = true → ∀ a, stored a = false → t.byteAt a = s.byteAt a

namespace Footprint

variable {rs : List Reg} {stored : Word → Bool}

theorem refl (s : State) : Footprint rs stored s s :=
  ⟨.refl s, .refl rs s, id, fun _ _ _ => rfl⟩

theorem trans {s t u : State} (h : Footprint rs stored s t) (k : Footprint rs stored t u) :
    Footprint rs stored s u where
  engine := h.engine.trans k.engine
  regs := h.regs.trans k.regs
  canonical hs := k.canonical (h.canonical hs)
  bytes hs a ha := (k.bytes (h.canonical hs) a ha).trans (h.bytes hs a ha)

theorem setReg (s : State) {r : Reg} (v : Word) (h : r ∈ rs) : Footprint rs stored s (s.setReg r v) where
  engine := setReg_engineUnchanged s r v
  regs _ hq := State.reg_setReg_ne s v fun heq => hq (heq ▸ h)
  canonical := id
  bytes _ _ _ := rfl

theorem store (s : State) {ea : Word} {w : Width} (v : Word) (h : ∀ a, stored a = false → inAccess ea w a = false) :
    Footprint rs stored s (s.store ea w v) where
  engine := store_engineUnchanged s ea w v
  regs _ _ := State.reg_store ..
  canonical hs := wf_store hs ea w v
  bytes hs a ha := byteAt_store_outside hs v (h a ha)

/-- The address register is modified where one of the two flags is set. -/
theorem updateAddressReg (s : State) {r : Reg} {dec inc : Bool} (w : Width) (h : (dec || inc) = true → r ∈ rs) :
    Footprint rs stored s (updateAddressReg s r dec inc w) := by
  cases hflags : dec || inc with
  | true => exact setReg s _ (h hflags)
  | false =>
    obtain ⟨rfl, rfl⟩ := Bool.or_eq_false_iff.mp hflags
    rw [updateAddressReg_none]
    exact refl s

theorem branchIf (c : Cond) (off10 : BitVec 10) (s : State) (h : .pc ∈ rs) :
    Footprint rs stored s (branchIf c off10 s) := by
  unfold Machine.branchIf
  split
  · exact setReg s _ h
  · exact refl s

end Footprint

theorem mem_registersInOrder (r : Reg) : r ∈ registersInOrder := by
  cases r <;> decide

theorem writtenRegs_branchInstr (c : Cond) (off10 : BitVec 10) : writtenRegs (branchInstr c off10) = [.r7] := by
  cases c <;> rfl

theorem writtenRegs_slotAt (k : Fin 32) (rc : SrcKind) (wb : Width) (src dst : Reg) :
    writtenRegs (slotAt k rc wb src dst) = registersInOrder := by
  fin_cases k <;> rfl

theorem storesAt_slotAt (k : Fin 32) (rc : SrcKind) (wb : Width) (src dst : Reg) (s : State) (a : Word) :
    storesAt (slotAt k rc wb src dst) s a = true := by
  fin_cases k <;> rfl

/-- A handler may write every register and every byte, but nothing else (R171). -/
theorem slot_footprint (k : Fin 32) (rc : SrcKind) (wb : Width) (src dst : Reg) (s : State) :
    Footprint (writtenRegs (slotAt k rc wb src dst)) (storesAt (slotAt k rc wb src dst) s) s
      (runSlot k rc wb src dst s) where
  engine := slotEntry_engineUnchanged ..
  regs r hr := by
    rw [writtenRegs_slotAt] at hr
    exact absurd (mem_registersInOrder r) hr
  canonical hwf := wf_slotEntry _ _ _ _ _ hwf
  bytes _ a ha := by
    rw [storesAt_slotAt] at ha
    cases ha

/-- Where LD or ST modifies its address register, outside the reserved combination, just one of its flags is set. -/
theorem flags_ne : ∀ {dec inc : Bool}, (dec && inc) = false → (dec || inc) = true → (dec == inc) = false := by
  decide

section
variable (prpo : IndexMode) (dec inc : Bool) (wb : Width) (src dst : Reg) (s : State)

/-- LD: nothing where the combination is reserved, else the address register and the destination. -/
theorem ld_footprint {t : State} (h : exec (.ld prpo dec inc wb src dst) s = .next t) :
    Footprint (writtenRegs (.ld prpo dec inc wb src dst)) (storesAt (.ld prpo dec inc wb src dst) s) s t := by
  cases hres : dec && inc with
  | true =>
    obtain ⟨rfl, rfl⟩ := Bool.and_eq_true_iff.mp hres
    rw [exec_ld_reserved] at h
    cases h
    exact .refl s
  | false =>
    rw [exec_ld_of_not_reserved prpo dec inc wb src dst s hres] at h
    cases h
    simp only [writtenRegs, hres]
    refine (Footprint.updateAddressReg s wb fun hmod => ?_).trans (.setReg _ _ ?_)
    · simp [hmod]
    · cases dec || inc <;> simp

/-- ST: nothing where the combination is reserved, else the address register and the bytes of the access. -/
theorem st_footprint {t : State} (h : exec (.st prpo dec inc wb src dst) s = .next t) :
    Footprint (writtenRegs (.st prpo dec inc wb src dst)) (storesAt (.st prpo dec inc wb src dst) s) s t := by
  cases hres : dec && inc with
  | true =>
    obtain ⟨rfl, rfl⟩ := Bool.and_eq_true_iff.mp hres
    rw [exec_st_reserved] at h
    cases h
    exact .refl s
  | false =>
    rw [exec_st_of_not_reserved prpo dec inc wb src dst s hres] at h
    cases h
    refine (Footprint.updateAddressReg s wb fun hmod => ?_).trans (.store _ _ fun a ha => ?_)
    · simp [writtenRegs, flags_ne hres hmod]
    · simpa [storesAt, hres] using ha

end

/-- Every instruction keeps to the registers and bytes that the frames name. -/
theorem exec_footprint {i : Instr} {s t : State} (h : exec i s = .next t) :
    Footprint (writtenRegs i) (storesAt i s) s t := by
  induction i using instr_induction with
  | movh imm8 dst => cases h; exact .setReg s _ (List.mem_singleton_self dst)
  | bl off12 => cases h; exact (Footprint.setReg s _ (.head _)).trans (.setReg _ _ (.tail _ (.head _)))
  | branch c off10 =>
    rw [exec_branchInstr] at h
    cases h
    rw [writtenRegs_branchInstr]
    exact .branchIf c off10 s (List.mem_singleton_self _)
  | slot k rc wb src dst =>
    rw [exec_slotAt] at h
    cases h
    exact slot_footprint k rc wb src dst s
  | ld prpo dec inc wb src dst => exact ld_footprint prpo dec inc wb src dst s h
  | st prpo dec inc wb src dst => exact st_footprint prpo dec inc wb src dst s h
  | movl imm8 dst => cases h; exact .setReg s _ (List.mem_singleton_self dst)
  | movlz imm8 dst => cases h; exact .setReg s _ (List.mem_singleton_self dst)
  | ldr off7 wb src dst => cases h; exact .setReg s _ (List.mem_singleton_self dst)
  | str off7 wb src dst => cases h; exact .store s _ fun _ ha => ha

/-- Settles O25: the register part of every instruction's footprint. -/
theorem registerFrame : Obligations.RegisterFrame := by
  unfold Obligations.RegisterFrame
  exact fun _ _ _ h => (exec_footprint h).regs

/-- Settles O26: the memory part of every instruction's footprint. -/
theorem memoryFrame : Obligations.MemoryFrame := by
  unfold Obligations.MemoryFrame
  exact fun _ _ _ a hwf h ha => (exec_footprint h).bytes hwf a ha

/-- Settles O27: the engine's part and the canonical form of every instruction's footprint. -/
theorem handlersChangeOnlyRegistersAndMemory : Obligations.HandlersChangeOnlyRegistersAndMemory := by
  unfold Obligations.HandlersChangeOnlyRegistersAndMemory
  exact fun _ _ _ h => ⟨(exec_footprint h).engine, (exec_footprint h).canonical⟩

end Sys2Proof.Machine

/-! PROOFS. The statements about the engine's step (spec/40_fde_engine.md, spec/10_state.md, spec/60_exceptions.md): what
a step can be, said once, and what follows of the clock, the run-flag, the signals and the invariant. -/

namespace Sys2Proof.Machine

/-! ### Nothing stops -/

/-- Every arm of `exec` answers a next state. -/
theorem exec_answersNext (i : Instr) (s : State) : AnswersNext (exec i s) := by
  cases i <;> exact ⟨_, rfl⟩

/-- What EXECUTE answers: without a word it goes on, with one the handler's effect is counted (R126, R127). -/
theorem executePhase_cases (s : State) :
    (s.ir = none ∧ executePhase s = .next (s.setPhase .handleDevices)) ∨
    ∃ w u, s.ir = some w ∧ exec (decode w) s = .next u ∧ executePhase s = .next (u.tickClock.setPhase .handleDevices) := by
  cases hir : s.ir with
  | none => exact .inl ⟨rfl, by rw [executePhase, hir]⟩
  | some w =>
    obtain ⟨u, hu⟩ := exec_answersNext (decode w) s
    exact .inr ⟨w, u, rfl, hu, executePhase_next hir hu⟩

theorem executePhase_answersNext (s : State) : AnswersNext (executePhase s) := by
  rcases executePhase_cases s with ⟨-, h⟩ | ⟨-, u, -, -, h⟩
  · exact ⟨_, h⟩
  · exact ⟨_, h⟩

theorem fromExecute_answersNext (s : State) : AnswersNext (fromExecute s) := by
  obtain ⟨t, ht⟩ := executePhase_answersNext s
  exact ⟨_, fromExecute_next ht⟩

/-! ### What a step can be -/

/-- A cycle that executes, from the handler's next state on (R131). -/
theorem step_executes_next {s u : State} (hf : s.phase = .fetch) (hr : s.run = true)
    (hp : s.reg .pc ≠ Config.haltAddress)
    (hu : exec (decode (fetchWord s.mem (s.reg .pc))) (decodePhase (fetchPhase s)) = .next u) :
    step s = .next (devicesPhase (u.tickClock.setPhase .handleDevices)) := by
  have hir : (decodePhase (fetchPhase s)).ir = some (fetchWord s.mem (s.reg .pc)) := by
    rw [decodePhase_fetchPhase hp]
  rw [step_executes hf hr hp, fromExecute_next (executePhase_next hir hu)]

/-- A step from the top of the loop: an ended run's, an idle cycle, or one that executes (R121, R124, R131). -/
theorem step_cases {s : State} (hf : s.phase = .fetch) :
    (s.run = false ∧ step s = .next s) ∨
    (s.run = true ∧ s.reg .pc = Config.haltAddress ∧ step s = .next (devicesPhase (fetchPhase s))) ∨
    (s.run = true ∧ s.reg .pc ≠ Config.haltAddress ∧
      ∃ u, exec (decode (fetchWord s.mem (s.reg .pc))) (decodePhase (fetchPhase s)) = .next u ∧
        step s = .next (devicesPhase (u.tickClock.setPhase .handleDevices))) := by
  cases hr : s.run with
  | false => exact .inl ⟨rfl, step_ended hf hr⟩
  | true =>
    by_cases hp : s.reg .pc = Config.haltAddress
    · exact .inr (.inl ⟨rfl, hp, step_idle hf hr hp⟩)
    · obtain ⟨u, hu⟩ := exec_answersNext (decode (fetchWord s.mem (s.reg .pc))) (decodePhase (fetchPhase s))
      exact .inr (.inr ⟨rfl, hp, u, hu, step_executes_next hf hr hp hu⟩)

/-- A step from the middle of a cycle: HANDLE_DEVICES at once, or after EXECUTE. -/
theorem step_midCycle {s : State} (hf : s.phase ≠ .fetch) :
    step s = .next (devicesPhase s) ∨ step s = fromExecute (decodePhase s) ∨ step s = fromExecute s := by
  unfold step cycle
  split
  next h => exact absurd h hf
  next => exact .inr (.inl rfl)
  next => exact .inr (.inr rfl)
  next => exact .inl rfl

theorem step_answersNext (s : State) : AnswersNext (step s) := by
  by_cases hf : s.phase = .fetch
  · rcases step_cases hf with ⟨-, h⟩ | ⟨-, -, h⟩ | ⟨-, -, u, -, h⟩
    · exact ⟨_, h⟩
    · exact ⟨_, h⟩
    · exact ⟨_, h⟩
  · rcases step_midCycle hf with h | h | h
    · exact ⟨_, h⟩
    · rw [h]; exact fromExecute_answersNext _
    · rw [h]; exact fromExecute_answersNext _

/-- Settles O32: no arm of `exec` faults or refuses, and no phase adds a fault or a refusal. -/
theorem everyInstructionAndStepAnswersNext : Obligations.EveryInstructionAndStepAnswersNext := by
  unfold Obligations.EveryInstructionAndStepAnswersNext
  exact ⟨exec_answersNext, step_answersNext⟩

/-! ### The clock and the run-flag -/

@[simp] theorem fetchPhase_run (s : State) : (fetchPhase s).run = s.run := rfl

@[simp] theorem fetchPhase_signals (s : State) : (fetchPhase s).signals = s.signals := rfl

@[simp] theorem fetchPhase_dev (s : State) : (fetchPhase s).dev = s.dev := rfl

/-- Settles O33: only EXECUTE counts, and it is reached where the run goes on and a word is fetched. -/
theorem clockCountsExecutedInstructions : Obligations.ClockCountsExecutedInstructions := by
  unfold Obligations.ClockCountsExecutedInstructions
  intro s t hf ht
  rcases step_cases hf with ⟨hr, h⟩ | ⟨hr, hp, h⟩ | ⟨hr, hp, u, hu, h⟩ <;> cases h.symm.trans ht
  · rw [if_neg (by simp [hr]), Nat.add_zero]
  · rw [if_neg (fun hc => hc.2 hp), devicesPhase_clk, fetchPhase_clk, Nat.add_zero]
  · have hclk : u.clk = s.clk := (exec_footprint hu).engine.clk
    rw [if_pos ⟨hr, hp⟩, devicesPhase_clk, State.setPhase_clk, State.tickClock_clk, clockAfter_config, hclk]

/-- Settles O34: of all that a step runs, only the taking of a signal touches the run-flag. -/
theorem onlyASignalClearsTheRunFlag : Obligations.OnlyASignalClearsTheRunFlag := by
  unfold Obligations.OnlyASignalClearsTheRunFlag
  intro s t hf ht
  rcases step_cases hf with ⟨hr, h⟩ | ⟨hr, hp, h⟩ | ⟨hr, hp, u, hu, h⟩ <;> cases h.symm.trans ht
  · rw [hr, Bool.false_and]
  · rw [devicesPhase_run, fetchPhase_run, fetchPhase_signals]
  · have hrun : u.run = s.run := (exec_footprint hu).engine.run
    have hsig : u.signals = s.signals := (exec_footprint hu).engine.signals
    rw [devicesPhase_run, State.setPhase_run, State.tickClock_run, State.setPhase_signals, State.tickClock_signals,
      hrun, hsig]

/-! ### The invariant -/

/-- HANDLE_DEVICES ends every cycle at the top of the loop. -/
theorem inv_devicesPhase {s : State} (h : s.mem.wf = true) : (devicesPhase s).Inv :=
  ⟨wf_devicesPhase h, devicesPhase_phase s, devicesPhase_ir s⟩

/-- EXECUTE keeps memory canonical, whatever the handler does, so the rest of the cycle ends at the top of the loop. -/
theorem inv_fromExecute {s t : State} (hwf : s.mem.wf = true) (h : fromExecute s = .next t) : t.Inv := by
  rcases executePhase_cases s with ⟨-, he⟩ | ⟨w, u, -, hu, he⟩ <;> cases (fromExecute_next he).symm.trans h
  · exact inv_devicesPhase hwf
  · exact inv_devicesPhase ((exec_footprint hu).canonical hwf)

/-- Settles O41: a cycle ends in HANDLE_DEVICES, and neither the handler nor the device leaves memory other than
canonical. -/
theorem everyStepKeepsTheInvariant : Obligations.EveryStepKeepsTheInvariant := by
  unfold Obligations.EveryStepKeepsTheInvariant
  intro s t hs ht
  rcases step_cases hs.atFetch with ⟨-, h⟩ | ⟨-, -, h⟩ | ⟨-, -, u, hu, h⟩ <;> cases h.symm.trans ht
  · exact hs
  · exact inv_devicesPhase hs.canonical
  · exact inv_devicesPhase ((exec_footprint hu).canonical hs.canonical)

/-- Settles O42: the rest of a cycle is HANDLE_DEVICES, or EXECUTE and then HANDLE_DEVICES. -/
theorem everyCycleEndsAtTheTopOfTheLoop : Obligations.EveryCycleEndsAtTheTopOfTheLoop := by
  unfold Obligations.EveryCycleEndsAtTheTopOfTheLoop
  intro s t hwf hf ht
  rcases step_midCycle hf with h | h | h <;> rw [h] at ht
  · cases ht
    exact inv_devicesPhase hwf
  · exact inv_fromExecute (s := decodePhase s) hwf ht
  · exact inv_fromExecute hwf ht

/-! ### The end of a run -/

/-- A machine whose step answers the state as it is stays there. -/
theorem run_of_step_self (M : Host.Core) {s : M.State} (h : M.step s = .next s) (k : Nat) : M.run k s = .next s := by
  induction k with
  | zero => rfl
  | succ k ih =>
    rw [Host.Core.run, h]
    exact ih

/-- Settles O36: an ended run's step answers the state as it is, and so does any number of them. -/
theorem endedRunNeverResumes : Obligations.EndedRunNeverResumes := by
  unfold Obligations.EndedRunNeverResumes
  exact fun _ k hr hf => run_of_step_self core (step_ended hf hr) k

/-- Up to HANDLE_DEVICES a cycle passes the list of signals through. -/
theorem step_of_signals {s : State} (hr : s.run = true) (hf : s.phase = .fetch) :
    ∃ e : State, ∀ signals, step { s with signals := signals } = .next (devicesPhase { e with signals := signals }) := by
  by_cases hp : s.reg .pc = Config.haltAddress
  · exact ⟨fetchPhase s, fun signals => step_idle (s := { s with signals := signals }) hf hr hp⟩
  · obtain ⟨u, hu⟩ := exec_answersNext (decode (fetchWord s.mem (s.reg .pc))) (decodePhase (fetchPhase s))
    exact ⟨u.tickClock.setPhase .handleDevices, fun signals =>
      step_executes_next (s := { s with signals := signals }) hf hr hp (exec_signals signals hu)⟩

/-- A raised signal ends the run and does nothing else. -/
theorem devicesPhase_raised (e : State) (later : List Bool) :
    devicesPhase { e with signals := true :: later } = (devicesPhase { e with signals := false :: later }).cancel := by
  unfold devicesPhase serviceDevices
  cases e.dev <;> rfl

/-- Settles O35: the signal is taken after the last phase, so the cycle is the same without it. -/
theorem cancellationWaitsForTheCycle : Obligations.CancellationWaitsForTheCycle := by
  unfold Obligations.CancellationWaitsForTheCycle
  intro s later hr hf
  obtain ⟨e, he⟩ := step_of_signals hr hf
  exact ⟨_, he _, (he _).trans (congrArg _ (devicesPhase_raised e later)),
    step_ended ((State.cancel_phase _).trans (devicesPhase_phase _)) (State.cancel_run _), rfl⟩

end Sys2Proof.Machine

/-! PROOFS. The statements about the phases of a cycle: what they add to the handler, what the device's service and the
next fetch see, and that R6 passes through (spec/40_fde_engine.md, spec/20_memory.md, spec/10_state.md). -/

namespace Sys2Proof.Machine

/-! ### The device hook -/

theorem reg_devicesPhase (s : State) (r : Reg) : (devicesPhase s).reg r = (serviceDevices s).reg r := by
  rw [State.reg, devicesPhase_regs, State.reg]

theorem byteAt_devicesPhase (s : State) (a : Word) : (devicesPhase s).byteAt a = (serviceDevices s).byteAt a := by
  rw [State.byteAt, devicesPhase_mem, State.byteAt]

/-- A present device's service takes effect whole (R128). -/
theorem serviceDevices_effect {s : State} {d : Nat} (h : s.dev = some d) :
    let e := Config.deviceService d s.regs s.byteAt
    (serviceDevices s).regs = e.regs ∧ (∀ a, (serviceDevices s).byteAt a = e.mem a) ∧
      (serviceDevices s).dev = some e.dev := by
  rw [serviceDevices_present h]
  exact ⟨rfl, fun a => Memory.readAt_ofContents _ a, rfl⟩

/-- Settles O37: the hook's effect, its footprint, and that HANDLE_DEVICES adds nothing to them. -/
theorem deviceHookFootprint : Obligations.DeviceHookFootprint := by
  unfold Obligations.DeviceHookFootprint
  exact fun s => ⟨fun _ => serviceDevices_effect, serviceDevices_absent,
    ⟨serviceDevices_clk s, serviceDevices_run s, serviceDevices_phase s, serviceDevices_ir s, serviceDevices_signals s⟩,
    wf_serviceDevices, ⟨devicesPhase_regs s, devicesPhase_mem s, devicesPhase_dev s⟩⟩

/-! ### The two kinds of cycle -/

/-- Settles O31: an idle cycle is FETCH, which only sets the PC to 0x0001, and HANDLE_DEVICES. -/
theorem idleCycleAtTheHaltAddress : Obligations.IdleCycleAtTheHaltAddress := by
  unfold Obligations.IdleCycleAtTheHaltAddress
  intro s hr hf hp
  have hregs : (fetchPhase s).regs = s.regs.set .pc 0x0001 := by rw [fetchPhase_regs, hp]; rfl
  refine ⟨devicesPhase (fetchPhase s), step_idle hf hr hp, devicesPhase_clk _, devicesPhase_phase _, devicesPhase_ir _,
    ?run, devicesPhase_signals _, fun hdev => ?absent, fun d hdev => ?present⟩
  case run => rw [devicesPhase_run, fetchPhase_run, fetchPhase_signals, hr, Bool.true_and]
  case absent =>
    rw [devicesPhase_regs, devicesPhase_mem, devicesPhase_dev, serviceDevices_absent (s := fetchPhase s) hdev]
    exact ⟨hregs, rfl, hdev⟩
  case present =>
    obtain ⟨hr', hm', hd'⟩ := serviceDevices_effect (s := fetchPhase s) hdev
    rw [hregs] at hr' hm' hd'
    rw [devicesPhase_regs, devicesPhase_dev]
    exact ⟨hr', fun a => (byteAt_devicesPhase _ a).trans (hm' a), hd'⟩

/-- Settles O28: FETCH and DECODE make the entry state, EXECUTE runs the instruction that the two bytes decode to. -/
theorem stepRunsTheDecodedInstruction : Obligations.StepRunsTheDecodedInstruction := by
  unfold Obligations.StepRunsTheDecodedInstruction
  intro s i hr hf hp hbytes entry t ht
  have hdec : decode (fetchWord s.mem (s.reg .pc)) = i := by
    cases hbytes
    rfl
  rw [← hdec, show entry = decodePhase (fetchPhase s) from (decodePhase_fetchPhase hp).symm] at ht
  have hstep := step_executes_next hf hr hp ht
  refine ⟨hstep, fun hdev hsig => hstep.trans (congrArg _ (devicesPhase_quiet ?_ ?_))⟩
  · exact (exec_footprint ht).engine.dev.trans hdev
  · exact (exec_footprint ht).engine.signals.trans hsig

/-! ### A step is its phases -/

theorem tick_fetch {s : State} (hf : s.phase = .fetch) (hr : s.run = true) : tick s = .next (fetchPhase s) := by
  rw [tick, hf, hr]
  rfl

theorem tick_decode {s : State} (h : s.phase = .decode) : tick s = .next (decodePhase s) := by
  rw [tick, h]

theorem tick_execute {s : State} (h : s.phase = .execute) : tick s = executePhase s := by
  rw [tick, h]

theorem tick_handleDevices {s : State} (h : s.phase = .handleDevices) : tick s = .next (devicesPhase s) := by
  rw [tick, h]

theorem ticks_succ {s t : State} (k : Nat) (h : tick s = .next t) : ticks (k + 1) s = ticks k t := by
  rw [ticks, h]

/-- Settles O40: `tick` by `tick`, each phase leads to the next one of its kind of cycle. -/
theorem cycleIsItsPhasesInOrder : Obligations.CycleIsItsPhasesInOrder := by
  unfold Obligations.CycleIsItsPhasesInOrder
  intro s hf hr
  have h1 (k : Nat) : ticks (k + 1) s = ticks k (fetchPhase s) := ticks_succ k (tick_fetch hf hr)
  rcases step_cases hf with ⟨hr', -⟩ | ⟨-, hp, hstep⟩ | ⟨-, hp, u, hu, hstep⟩
  · rw [hr] at hr'
    cases hr'
  · have hphase : (fetchPhase s).phase = .handleDevices := by rw [fetchPhase_phase_eq_ite, if_pos hp]
    refine ⟨_, hstep, devicesPhase_phase _, fun _ => ⟨_, h1 0, hphase, ?_⟩, fun hne => absurd hp hne⟩
    rw [h1, ticks_succ _ (tick_handleDevices hphase), ticks]
  · have hphase : (fetchPhase s).phase = .decode := by rw [fetchPhase_phase_eq_ite, if_neg hp]
    have hir : (decodePhase (fetchPhase s)).ir = some (fetchWord s.mem (s.reg .pc)) := by
      rw [decodePhase_fetchPhase hp]
    have h2 (k : Nat) : ticks (k + 2) s = ticks k (decodePhase (fetchPhase s)) := by
      rw [h1, ticks_succ k (tick_decode hphase)]
    have h3 (k : Nat) : ticks (k + 3) s = ticks k (u.tickClock.setPhase .handleDevices) := by
      rw [h2, ticks_succ k ((tick_execute rfl).trans (executePhase_next hir hu))]
    refine ⟨_, hstep, devicesPhase_phase _, fun heq => absurd heq hp, fun _ =>
      ⟨_, _, _, h1 0, hphase, h2 0, rfl, h3 0, rfl, ?_⟩⟩
    rw [h3, ticks_succ _ (tick_handleDevices rfl), ticks]

/-! ### What the next fetch reads (R70) -/

/-- The next fetch reads the registers and the bytes that the device hook leaves. -/
theorem fetchPhase_devicesPhase_ir (s : State) :
    (fetchPhase (devicesPhase s)).ir =
      if (serviceDevices s).reg .pc = Config.haltAddress then none
      else some ((serviceDevices s).byteAt ((serviceDevices s).reg .pc + 1) ++
        (serviceDevices s).byteAt ((serviceDevices s).reg .pc)) := by
  rw [fetchPhase_ir_eq_ite, reg_devicesPhase, byteAt_devicesPhase, byteAt_devicesPhase]

/-- With no device the next fetch after an instruction reads what the instruction left. -/
theorem fetch_after_step {s u : State} {i : Instr} (hr : s.run = true) (hf : s.phase = .fetch) (hdev : s.dev = none)
    (hp : s.reg .pc ≠ Config.haltAddress) (hdec : decode (fetchWord s.mem (s.reg .pc)) = i)
    (hu : exec i (decodePhase (fetchPhase s)) = .next u) :
    ∃ t, step s = .next t ∧ t.regs = u.regs ∧ (fetchPhase t).ir =
      if u.reg .pc = Config.haltAddress then none else some (u.byteAt (u.reg .pc + 1) ++ u.byteAt (u.reg .pc)) := by
  subst hdec
  have hud : (u.tickClock.setPhase .handleDevices).dev = none := (exec_footprint hu).engine.dev.trans hdev
  refine ⟨_, step_executes_next hf hr hp hu, ?_, ?_⟩
  · rw [devicesPhase_regs, serviceDevices_absent hud]
    rfl
  · rw [fetchPhase_devicesPhase_ir, serviceDevices_absent hud]
    rfl

/-- An instruction that sets the PC to `a` and stores a word there: that word is the next one fetched. -/
theorem fetch_after_store_at_pc {s : State} {i : Instr} {a v : Word} (hinv : s.Inv) (hr : s.run = true)
    (hdev : s.dev = none) (hp : s.reg .pc ≠ Config.haltAddress) (hdec : decode (fetchWord s.mem (s.reg .pc)) = i)
    (ha : a ≠ Config.haltAddress)
    (hu : exec i (decodePhase (fetchPhase s)) =
      .next (((decodePhase (fetchPhase s)).setReg .pc a).store a .word v)) :
    ∃ t, step s = .next t ∧ t.reg .pc = a ∧ (fetchPhase t).ir = some v := by
  obtain ⟨t, hstep, hregs, hir⟩ := fetch_after_step hr hinv.atFetch hdev hp hdec hu
  have hpc (e : State) : ((e.setReg .pc a).store a .word v).reg .pc = a := by
    rw [State.reg_store, State.reg_setReg_same]
  refine ⟨t, hstep, ?_, ?_⟩
  · rw [State.reg, hregs]
    exact hpc _
  · rw [hir, hpc, if_neg ha]
    exact congrArg some (busRead_busWrite_word (m := s.mem) hinv.canonical a v)

section
variable (src : Reg) (e : State)

/-- STR Rn, 0(PC). -/
theorem exec_str_pc :
    exec (.str 0 .word src .pc) e = .next ((e.setReg .pc (e.reg .pc)).store (e.reg .pc) .word (e.reg src)) := by
  rw [exec_str, State.setReg_reg, show (0 : BitVec 7).signExtend 16 = 0#16 from rfl, BitVec.add_zero]

/-- A word form of ST on PC, for the address `a` that both the PC and the store end at. -/
theorem exec_st_pc {prpo : IndexMode} {dec inc : Bool} {p a : Word} (hpc : e.reg .pc = p) (hres : (dec && inc) = false)
    (hnew : p + indexDelta dec inc .word = a) (hea : indexedAddress prpo dec inc .word p = a) :
    exec (.st prpo dec inc .word src .pc) e = .next ((e.setReg .pc a).store a .word (e.reg src)) := by
  rw [exec_st_of_not_reserved _ _ _ _ _ _ _ hres, updateAddressReg, hpc, hea, hnew]

end

/-- Settles O39: what an instruction or the device leaves in memory is what the next fetch reads; the five storing forms
set the PC to the address at which they store. -/
theorem storeIsSeenByTheNextFetch : Obligations.StoreIsSeenByTheNextFetch := by
  unfold Obligations.StoreIsSeenByTheNextFetch
  refine ⟨fun s u i hr hf hdev hp hdec hu => ?instruction, fun s src hinv hr hdev hp => ?stores, fun s d hdev => ?device⟩
  case instruction =>
    obtain ⟨t, hstep, -, hir⟩ := fetch_after_step hr hf hdev hp hdec ((decodePhase_fetchPhase hp).symm ▸ hu)
    exact ⟨t, hstep, hir⟩
  case stores =>
    have hpc : (decodePhase (fetchPhase s)).reg .pc = s.reg .pc + 2 := fetchPhase_pc s
    simp only [List.forall_mem_cons]
    refine ⟨fun hdec ha => fetch_after_store_at_pc hinv hr hdev hp hdec ha ?str,
      fun hdec ha => fetch_after_store_at_pc hinv hr hdev hp hdec ha ?stPost,
      fun hdec ha => fetch_after_store_at_pc hinv hr hdev hp hdec ha ?stPre,
      fun hdec ha => fetch_after_store_at_pc hinv hr hdev hp hdec ha ?stInc,
      fun hdec ha => fetch_after_store_at_pc hinv hr hdev hp hdec ha ?stDec, List.forall_mem_nil _⟩
    case str => exact hpc ▸ exec_str_pc src _
    case stPost => exact exec_st_pc src _ hpc rfl (BitVec.add_zero _) rfl
    case stPre => exact exec_st_pc src _ hpc rfl (BitVec.add_zero _) (BitVec.add_zero _)
    case stInc => exact exec_st_pc src _ hpc rfl (BitVec.add_assoc ..) (BitVec.add_assoc ..)
    case stDec => exact exec_st_pc src _ hpc rfl (add_neg_cancel_right ..) (add_neg_cancel_right ..)
  case device =>
    obtain ⟨hregs, hbytes, -⟩ := serviceDevices_effect hdev
    rw [fetchPhase_devicesPhase_ir]
    simp only [State.reg, hregs, hbytes]
    rfl

end Sys2Proof.Machine

/-! PROOFS. The statements about R6 and the engine (spec/10_state.md, spec/60_exceptions.md), and about the start of a run
and the host (spec/10_state.md, spec/70_reset_and_hazards.md). -/

namespace Sys2Proof.Machine

/-! ### R6 passes through the engine -/

theorem takeSignal_setReg (s : State) (r : Reg) (v : Word) : (s.setReg r v).takeSignal = s.takeSignal.setReg r v := by
  unfold State.takeSignal
  rw [State.setReg_signals]
  split
  · rfl
  · split <;> rfl

/-- FETCH writes R7 and reads no other register. -/
theorem fetchPhase_setReg_psw (s : State) (v : Word) :
    fetchPhase (s.setReg .psw v) = (fetchPhase s).setReg .psw v := rfl

theorem decodePhase_setReg (s : State) (r : Reg) (v : Word) :
    decodePhase (s.setReg r v) = (decodePhase s).setReg r v := rfl

theorem devicesPhase_setReg {s : State} (h : s.dev = none) (r : Reg) (v : Word) :
    devicesPhase (s.setReg r v) = (devicesPhase s).setReg r v := by
  rw [devicesPhase_absent h, devicesPhase_absent ((s.setReg_dev r v).trans h), ← takeSignal_setReg]
  rfl

/-- The sleep flag is bit 3 of R6 (R31); inverting it leaves every other bit. -/
theorem pswBit_xor_sleep (psw : Word) {i : Nat} (h : i ≠ 3) : pswBit (psw ^^^ 0x0008) i = pswBit psw i := by
  rw [pswBit, BitVec.getLsbD_xor, show (0x0008 : Word) = BitVec.twoPow 16 3 from rfl, BitVec.getLsbD_twoPow,
    decide_eq_false (Ne.symm h), Bool.and_false, Bool.xor_false, pswBit]

/-- No condition reads the sleep flag (R284). -/
theorem condHolds_xor_sleep (c : Cond) (psw : Word) :
    condHolds Config.pswLayout c (psw ^^^ 0x0008) = condHolds Config.pswLayout c psw := by
  have hc : flagC Config.pswLayout (psw ^^^ 0x0008) = flagC Config.pswLayout psw := pswBit_xor_sleep psw (by decide)
  have hz : flagZ Config.pswLayout (psw ^^^ 0x0008) = flagZ Config.pswLayout psw := pswBit_xor_sleep psw (by decide)
  have hn : flagN Config.pswLayout (psw ^^^ 0x0008) = flagN Config.pswLayout psw := pswBit_xor_sleep psw (by decide)
  have hv : flagV Config.pswLayout (psw ^^^ 0x0008) = flagV Config.pswLayout psw := pswBit_xor_sleep psw (by decide)
  simp only [condHolds, hc, hz, hn, hv]

/-- The top of the loop with another R6: the poll, FETCH and the choice of phases are those of the old one (R24, R121). -/
theorem top_of_loop_setReg_psw {s : State} (v : Word) (hf : s.phase = .fetch) :
    tick (s.setReg .psw v) = .next ((if s.run = true then fetchPhase s else s).setReg .psw v) ∧
    (s.run = false → step (s.setReg .psw v) = .next (s.setReg .psw v)) ∧
    (s.run = true → s.reg .pc = Config.haltAddress →
      step (s.setReg .psw v) = .next (devicesPhase ((fetchPhase s).setReg .psw v))) ∧
    (s.run = true → s.reg .pc ≠ Config.haltAddress →
      step (s.setReg .psw v) = fromExecute ((decodePhase (fetchPhase s)).setReg .psw v)) := by
  refine ⟨?_, step_ended (s := s.setReg .psw v) hf, step_idle (s := s.setReg .psw v) hf,
    step_executes (s := s.setReg .psw v) hf⟩
  cases hr : s.run with
  | true => exact tick_fetch (s := s.setReg .psw v) hf hr
  | false =>
    rw [tick, State.setReg_phase, hf, State.setReg_run, hr]
    rfl

/-- Settles O38: each phase, the poll and each condition by itself. -/
theorem engineNeverReadsThePsw : Obligations.EngineNeverReadsThePsw := by
  unfold Obligations.EngineNeverReadsThePsw
  refine ⟨fun s v => ⟨fetchPhase_setReg_psw s v, decodePhase_setReg s .psw v, fun h => devicesPhase_setReg h .psw v⟩,
    fun s t w hir ht => ⟨executePhase_next hir ht, fromExecute_next (executePhase_next hir ht)⟩,
    fun s v hf => top_of_loop_setReg_psw v hf, condHolds_xor_sleep⟩

/-! ### The start of a run -/

/-- Settles O43: reset lists no byte, so its memory is canonical. -/
theorem resetIsAtTheTopOfTheLoop : Obligations.ResetIsAtTheTopOfTheLoop := by
  unfold Obligations.ResetIsAtTheTopOfTheLoop
  exact ⟨⟨wf_reset, rfl, rfl⟩, rfl, rfl, rfl, rfl⟩

/-- Placing one more entry at the end of an image is one more write. -/
theorem imageMemory_append (image : List (Word × Byte)) (cell : Word × Byte) :
    imageMemory (image ++ [cell]) = (imageMemory image).writeAt cell.1 cell.2 :=
  List.foldl_append ..

/-- The last entry for an address is the byte that memory starts with. -/
theorem readAt_imageMemory {image : List (Word × Byte)} {a : Word} {cell : Word × Byte}
    (h : (image.reverse.find? fun c => c.1 == a) = some cell) : (imageMemory image).readAt a = cell.2 := by
  induction image using List.reverseRecOn with
  | nil => cases h
  | append_singleton image last ih =>
    rw [imageMemory_append, Memory.readAt_writeAt (wf_imageMemory image)]
    rw [List.reverse_append, List.reverse_singleton, List.singleton_append, List.find?_cons] at h
    split at h
    next heq =>
      cases h
      rw [if_pos (eq_of_beq heq).symm]
    next hne =>
      rw [if_neg fun heq => absurd (beq_iff_eq.mpr heq.symm) (by simp [hne])]
      exact ih h

/-- An image that gives every address its byte of `f`. -/
def imageOfContents (f : Word → Byte) : List (Word × Byte) :=
  (List.finRange (2 ^ 16)).map fun n => (BitVec.ofFin n, f (BitVec.ofFin n))

theorem mem_imageOfContents (f : Word → Byte) (cell : Word × Byte) :
    cell ∈ imageOfContents f ↔ cell.2 = f cell.1 := by
  rw [imageOfContents, List.mem_map]
  constructor
  · rintro ⟨n, -, rfl⟩
    rfl
  · intro h
    exact ⟨cell.1.toFin, List.mem_finRange _, Prod.ext rfl h.symm⟩

/-- Some entry is the last one for `a`, and every entry for `a` holds `f a`. -/
theorem readAt_imageOfContents (f : Word → Byte) (a : Word) : (imageMemory (imageOfContents f)).readAt a = f a := by
  have hsome : ((imageOfContents f).reverse.find? fun c => c.1 == a).isSome = true :=
    List.find?_isSome.mpr ⟨(a, f a), List.mem_reverse.mpr ((mem_imageOfContents f _).mpr rfl), beq_self_eq_true a⟩
  obtain ⟨cell, hcell⟩ := Option.isSome_iff_exists.mp hsome
  have haddr : cell.1 = a := eq_of_beq (List.find?_some (p := fun c : Word × Byte => c.1 == a) hcell)
  have hmem : cell ∈ imageOfContents f := List.mem_reverse.mp (List.mem_of_find?_eq_some hcell)
  rw [readAt_imageMemory hcell, (mem_imageOfContents f cell).mp hmem, haddr]

theorem exists_image (f : Word → Byte) : ∃ image, ∀ a, (imageMemory image).readAt a = f a :=
  ⟨imageOfContents f, readAt_imageOfContents f⟩

theorem reg_launch (l : Launch) (signals : List Bool) (r : Reg) :
    (State.launch l signals).reg r = (l.regs.set .pc l.pc).get r := rfl

/-- Settles O44: the launch sets each field, and memory is the image's, whose last entry for an address stays. -/
theorem launchSuppliesTheStartOfARun : Obligations.LaunchSuppliesTheStartOfARun := by
  unfold Obligations.LaunchSuppliesTheStartOfARun
  refine ⟨fun l signals => ?launched, fun f => ?contents⟩
  case launched =>
    refine ⟨⟨wf_imageMemory l.image, rfl, rfl⟩, rfl, rfl, rfl, rfl, ?pc, fun r hr => ?others, rfl,
      fun _ => readAt_imageMemory⟩
    case pc => rw [reg_launch, RegFile.get_set_same]
    case others => rw [reg_launch, RegFile.get_set_ne _ _ hr]
  case contents =>
    obtain ⟨image, himage⟩ := exists_image f
    exact ⟨image, fun _ _ _ _ => himage⟩

/-! ### The host's read -/

theorem inspect_of_paused {s : State} (h : s.paused = true) :
    s.inspect = .ok { regs := s.regs, mem := s.mem, clk := s.clk } := by
  rw [State.inspect, if_pos h]

theorem inspect_of_not_paused {s : State} (h : s.paused = false) : s.inspect = .error .inspectedWhileRunning := by
  rw [State.inspect, h]
  rfl

/-- Settles O45: paused is a false run-flag at FETCH. -/
theorem inspectionOnlyWhilePaused : Obligations.InspectionOnlyWhilePaused := by
  unfold Obligations.InspectionOnlyWhilePaused
  refine fun s => ⟨fun h => inspect_of_not_paused ?_, fun hr hf => inspect_of_paused ?_⟩
  · rcases h with hr | hf
    · rw [State.paused, hr]
      rfl
    · rw [State.paused, beq_eq_false_iff_ne.mpr hf, Bool.and_false]
  · rw [State.paused, hr, hf]
    rfl

end Sys2Proof.Machine
